-- ==== Sys2Proof/Word.lean ====
section
/-! DEFINITION. Word.lean: the bit-vector types of the PTC-GPIO block (spec/00_scope.md R8, R9). Bit 0 is the least
significant bit; `U(v)` of the spec is `v.toNat` and `S(v)` is `v.toInt`. -/
namespace Sys2Proof

/-- One byte of a channel (R41: `read_bytes`, R45). -/
abbrev Byte := BitVec 8

/-- A calibration constant, `CAL_WIDTH` = 16 bits (R8, R21). -/
abbrev Half := BitVec 16

/-- A raw count, `ADC_WIDTH` = 20 bits (R8, the type `U20` of R9). -/
abbrev Count := BitVec 20

/-- A 32-bit value: an arithmetic intermediate (`XLEN` = 32), a command word, a word of the GPIO bank or a bank byte
offset (R8, R32, R60). -/
abbrev Word := BitVec 32

end Sys2Proof
end

