-- ==== Sys2Proof/Syntax.lean ====
section
/-! DEFINITION. Syntax.lean: the command set, one constructor for each row of spec/opcode_table.json
(spec/30_encoding.md R63). The document's operation names stand in the docstrings. -/
namespace Sys2Proof

/-- The eight commands (R63). A raw count is a 20-bit vector, because the arithmetic widens and shifts it (R64, R102).
A pin is an index (R64: "an unsigned integer"), so a natural number; `Instr.wellFormed` says which ones a command word
can carry. -/
inductive Instr where
  /-- RDCAL, `read_calibration()` (R81). -/
  | rdcal
  /-- RDRAW, `read_raw_sample()` (R85). -/
  | rdraw
  /-- CMPT, `compensate_temperature(raw_t: u20)` (R104). -/
  | cmpt (raw : Count)
  /-- CMPP, `compensate_pressure(raw_p: u20)` (R109). -/
  | cmpp (raw : Count)
  /-- GSET, `set_level(pin, value: bool)` (R135). -/
  | gset (pin : Nat) (value : Bool)
  /-- GGET, `get_level(pin)` (R136). -/
  | gget (pin : Nat)
  /-- GDIN, `set_direction_input(pin)` (R138). -/
  | gdin (pin : Nat)
  /-- GDOUT, `set_direction_output(pin, initial_value: bool)` (R139). -/
  | gdout (pin : Nat) (value : Bool)
deriving DecidableEq, Repr

end Sys2Proof
end

