-- ==== Sys2Proof/WellFormed.lean ====
section
/-! DEFINITION. WellFormed.lean: which instructions a command word can carry. `ARG` has 20 bits (R61), so a pin index of
2^20 or more has no encoding (R64, R67): a host must not truncate it into `ARG`. A pin of 54 and above is well formed; it
is the command that ends `InvalidPin` (R130). -/
namespace Sys2Proof

/-- The number of values of the field `ARG` (R61). -/
def argLimit : Nat := 2 ^ 20

/-- The pin index fits the 20-bit field `ARG` (R64). -/
def pinFits (pin : Nat) : Bool := decide (pin < argLimit)

/-- The instruction has an encoding (R62, R64). -/
def Instr.wellFormed : Instr → Bool
  | .rdcal => true
  | .rdraw => true
  | .cmpt _ => true
  | .cmpp _ => true
  | .gset pin _ => pinFits pin
  | .gget pin => pinFits pin
  | .gdin pin => pinFits pin
  | .gdout pin _ => pinFits pin

end Sys2Proof
end

