-- ==== Sys2Proof/Decode.lean ====
section
/-! DEFINITION. Decode.lean: from command words to instructions and back (spec/30_encoding.md R60 to R66, R72). A command
is one 32-bit word that the host presents whole (R60), so there is no byte order and no second word (R66). -/
namespace Sys2Proof

/-! ### Fields of a command word (R61) -/

/-- `OPC`, bits 31:24. -/
def opcField (w : Word) : BitVec 8 := w.extractLsb' 24 8

/-- `RSV`, bits 23:21. -/
def rsvField (w : Word) : BitVec 3 := w.extractLsb' 21 3

/-- `V`, bit 20. -/
def vField (w : Word) : BitVec 1 := w.extractLsb' 20 1

/-- `ARG`, bits 19:0. -/
def argField (w : Word) : BitVec 20 := w.extractLsb' 0 20

/-- The word with these four fields. -/
def packFields (opc : BitVec 8) (rsv : BitVec 3) (v : BitVec 1) (arg : BitVec 20) : Word := opc ++ rsv ++ v ++ arg

/-! ### The opcode map (R63) -/

/-- The eight operations, without operands. -/
inductive Op where
  | rdcal
  | rdraw
  | cmpt
  | cmpp
  | gset
  | gget
  | gdin
  | gdout
deriving DecidableEq, Repr

/-- The four format variants (R62). -/
inductive Variant where
  /-- No operand: `V` and `ARG` must be 0. -/
  | n
  /-- Raw count: `V` must be 0. -/
  | r
  /-- Pin: `V` must be 0. -/
  | p
  /-- Pin and value. -/
  | pv
deriving DecidableEq, Repr

/-- The `OPC` column of R63. -/
def Op.code : Op → BitVec 8
  | .rdcal => 0x01#8
  | .rdraw => 0x02#8
  | .cmpt => 0x03#8
  | .cmpp => 0x04#8
  | .gset => 0x10#8
  | .gget => 0x11#8
  | .gdin => 0x12#8
  | .gdout => 0x13#8

/-- The variant column of R63. -/
def Op.variant : Op → Variant
  | .rdcal => .n
  | .rdraw => .n
  | .cmpt => .r
  | .cmpp => .r
  | .gset => .pv
  | .gget => .p
  | .gdin => .p
  | .gdout => .pv

/-- The mask column of R62: the bits that must match. -/
def Variant.mask : Variant → Word
  | .n => 0xFFFFFFFF#32
  | .r => 0xFFF00000#32
  | .p => 0xFFF00000#32
  | .pv => 0xFFE00000#32

/-- The match column of R63. -/
def Op.pattern : Op → Word
  | .rdcal => 0x01000000#32
  | .rdraw => 0x02000000#32
  | .cmpt => 0x03000000#32
  | .cmpp => 0x04000000#32
  | .gset => 0x10000000#32
  | .gget => 0x11000000#32
  | .gdin => 0x12000000#32
  | .gdout => 0x13000000#32

/-- A word selects the command of a row of R63. -/
def Op.selects (o : Op) (w : Word) : Bool := w &&& o.variant.mask == o.pattern

/-- The rows of R63 in the table's order. -/
def Op.all : List Op := [.rdcal, .rdraw, .cmpt, .cmpp, .gset, .gget, .gdin, .gdout]

/-- The operation of an `OPC` value; the other 248 values are unassigned (R65). -/
def opOfCode (opc : BitVec 8) : Option Op := Op.all.find? fun o => o.code == opc

/-! ### Decoding (R72) -/

/-- Why a word is illegal (R65, R72). All three end the command with status `IllegalCommand`. -/
inductive Illegal where
  /-- `RSV` is not 0. -/
  | reservedBits
  /-- `OPC` is assigned to no command. -/
  | unassignedOpcode
  /-- `V`, or for variant N `V` or `ARG`, is not 0 where the variant has no such operand. -/
  | operandBits
deriving DecidableEq, Repr

/-- What a word decodes as. -/
inductive Decoded where
  | legal (i : Instr)
  | illegal (why : Illegal)
deriving DecidableEq, Repr

/-- The bits a variant has no operand for are 0 (R62). -/
def Variant.unusedBitsClear : Variant → Word → Bool
  | .n, w => vField w == 0#1 && argField w == 0#20
  | .r, w => vField w == 0#1
  | .p, w => vField w == 0#1
  | .pv, _ => true

/-- The instruction of a row with its operands taken from the word unscaled (R64). -/
def Op.withOperands (o : Op) (w : Word) : Instr :=
  match o with
  | .rdcal => .rdcal
  | .rdraw => .rdraw
  | .cmpt => .cmpt (argField w)
  | .cmpp => .cmpp (argField w)
  | .gset => .gset (argField w).toNat (vField w == 1#1)
  | .gget => .gget (argField w).toNat
  | .gdin => .gdin (argField w).toNat
  | .gdout => .gdout (argField w).toNat (vField w == 1#1)

/-- Decoding is total (R72): reserved bits, then the opcode, then the bits the variant has no operand for. -/
def decode (w : Word) : Decoded :=
  if rsvField w != 0#3 then .illegal .reservedBits
  else
    match opOfCode (opcField w) with
    | none => .illegal .unassignedOpcode
    | some o => if o.variant.unusedBitsClear w then .legal (o.withOperands w) else .illegal .operandBits

/-- The decoder on an opcode-table word of `nbits` bits; the bits above are 0. The word is the command port's 32 bits, so
nothing is laid out in bytes. -/
def decodeTableWord (nbits w : Nat) : Option Instr :=
  match decode (BitVec.ofNat 32 (w % 2 ^ nbits)) with
  | .legal i => some i
  | .illegal _ => none

/-! ### Encoding (R63, R64) -/

/-- The operation of an instruction. -/
def Instr.op : Instr → Op
  | .rdcal => .rdcal
  | .rdraw => .rdraw
  | .cmpt _ => .cmpt
  | .cmpp _ => .cmpp
  | .gset _ _ => .gset
  | .gget _ => .gget
  | .gdin _ => .gdin
  | .gdout _ _ => .gdout

/-- The operand that `ARG` carries. -/
def Instr.argBits : Instr → BitVec 20
  | .rdcal => 0#20
  | .rdraw => 0#20
  | .cmpt raw => raw
  | .cmpp raw => raw
  | .gset pin _ => BitVec.ofNat 20 pin
  | .gget pin => BitVec.ofNat 20 pin
  | .gdin pin => BitVec.ofNat 20 pin
  | .gdout pin _ => BitVec.ofNat 20 pin

/-- The operand that `V` carries. -/
def Instr.vBit : Instr → BitVec 1
  | .rdcal => 0#1
  | .rdraw => 0#1
  | .cmpt _ => 0#1
  | .cmpp _ => 0#1
  | .gset _ value => BitVec.ofBool value
  | .gget _ => 0#1
  | .gdin _ => 0#1
  | .gdout _ value => BitVec.ofBool value

/-- The command word of a well-formed instruction (R63, R67). -/
def encode (i : Instr) : Word := packFields i.op.code 0#3 i.vBit i.argBits

end Sys2Proof
end

