-- ==== Sys2Proof/Config.lean ====
section
/-! DEFINITION. Config.lean: what is fixed at construction (spec/10_state.md R28, spec/00_scope.md R8) and the free values
the environment supplies (spec/20_memory.md R40; log entries 3, 4 and 5). -/
namespace Sys2Proof

/-- `CAL_COUNT`: the number of calibration constants (R8). -/
def calCount : Nat := 12

/-- `CALIB_LEN`: the length of the calibration block in bytes (R8). -/
def calibLen : Nat := 24

/-- `RAW_LEN`: the length of the raw-sample block in bytes (R8). -/
def rawLen : Nat := 6

/-- `PIN_COUNT`: "fixed at 54 for this hardware" (R8, R130). -/
def pinCount : Nat := 54

/-- `FSEL_BITS`: function-select bits of one pin (R8). -/
def fselBits : Nat := 3

/-- `FSEL_PER_WORD`: pins in one function-select word (R8). -/
def fselPerWord : Nat := 10

/-- `PINS_PER_WORD`: pins in one set, clear or level word (R8). -/
def pinsPerWord : Nat := 32

/-- Words of the function-select block (R50). -/
def fselWords : Nat := 6

/-- Words of each of the set, clear and level blocks (R50). -/
def levelWords : Nat := 2

/-- The parameters the document names and does not number (R8, R28). They are held in `State.cfg` as plain data, so every
statement holds for every value of them; no command changes them. -/
structure Config where
  /-- `CALIB_BASE`: sensor register address of calibration byte 0. -/
  calibBase : Byte
  /-- `DATA_BASE`: sensor register address of raw-sample byte 0. -/
  dataBase : Byte
  /-- `FSEL_OFF`: byte offset of function-select word 0. -/
  fselOff : Word
  /-- `SET_OFF`: byte offset of set word 0. -/
  setOff : Word
  /-- `CLR_OFF`: byte offset of clear word 0. -/
  clrOff : Word
  /-- `LEV_OFF`: byte offset of level word 0. -/
  levOff : Word
  /-- `GPIO_BASE`: base address of the bank; no rule uses it (R44). -/
  gpioBase : Nat
deriving DecidableEq, Repr

/-- The default parameter values of R8 (marked there as from general knowledge). `GPIO_BASE` has no default and no rule
uses it; the 0 is DESIGN CHOICE, unsafe, log entry 2. -/
def Config.default : Config where
  calibBase := 0x88#8
  dataBase := 0xF7#8
  fselOff := 0x00#32
  setOff := 0x1C#32
  clrOff := 0x28#32
  levOff := 0x34#32
  gpioBase := 0

/-- Two byte ranges given by base and length share no byte. -/
abbrev rangesDisjoint (a la b lb : Nat) : Prop := a + la ≤ b ∨ b + lb ≤ a

/-- The constraints of R8 on the parameters: both sensor blocks lie in the 8-bit space; the four offsets are multiples
of 4, and the four byte ranges lie below 2^32 and are pairwise disjoint. -/
structure Config.Ok (c : Config) : Prop where
  calib : c.calibBase.toNat + calibLen ≤ 256
  data : c.dataBase.toNat + rawLen ≤ 256
  fselAligned : c.fselOff.toNat % 4 = 0
  setAligned : c.setOff.toNat % 4 = 0
  clrAligned : c.clrOff.toNat % 4 = 0
  levAligned : c.levOff.toNat % 4 = 0
  fselFits : c.fselOff.toNat + 24 ≤ 2 ^ 32
  setFits : c.setOff.toNat + 8 ≤ 2 ^ 32
  clrFits : c.clrOff.toNat + 8 ≤ 2 ^ 32
  levFits : c.levOff.toNat + 8 ≤ 2 ^ 32
  fselSet : rangesDisjoint c.fselOff.toNat 24 c.setOff.toNat 8
  fselClr : rangesDisjoint c.fselOff.toNat 24 c.clrOff.toNat 8
  fselLev : rangesDisjoint c.fselOff.toNat 24 c.levOff.toNat 8
  setClr : rangesDisjoint c.setOff.toNat 8 c.clrOff.toNat 8
  setLev : rangesDisjoint c.setOff.toNat 8 c.levOff.toNat 8
  clrLev : rangesDisjoint c.clrOff.toNat 8 c.levOff.toNat 8

/-- What the register channel hands the block in answer to one `read_bytes` (R41): some bytes, or the channel's failure.
How many bytes were asked for decides whether this is `Ok`, `Short` or `Fail` (`Machine.busOutcome`). -/
inductive BusAnswer where
  /-- The channel delivered these bytes. -/
  | delivered (bytes : List Byte)
  /-- The underlying channel read failed. -/
  | failed
deriving DecidableEq, Repr, Inhabited

/-- FREE VALUE (log entry 4): what an oracle sensor answers to the BusRead that draws the n-th free value (R40, U17). -/
opaque Config.freeBusAnswer : Nat → BusAnswer

/-- FREE VALUE (log entry 5): the word a bank answers to the MemRead that draws the n-th free value, where the spec leaves
the answer to the environment (R40, U6). -/
opaque Config.freeWord : Nat → Word

end Sys2Proof
end

