-- ==== Sys2Proof/Machine/State.lean ====
section
/-! DEFINITION. State.lean: the state of the PTC-GPIO block (spec/10_state.md), the environment that answers its two
channels (spec/20_memory.md R40, R56), the host's side of the command port, the event trace (R57), and the reset state
(spec/70_reset_and_hazards.md R190 to R192). Plain data throughout. -/
namespace Sys2Proof.Machine

/-! ### The block -/

/-- The phase of the T_fine sequencer, `TSEQ` (R25). The fourth encoding `0b11` is never produced (U14). -/
inductive Tseq where
  /-- `T_FINE` has never been written since reset. -/
  | unset
  /-- `T_FINE` was written by a CMPT and no CMPP has consumed it since. -/
  | fresh
  /-- `T_FINE` was written by a CMPT and at least one CMPP has consumed it since. -/
  | consumed
deriving DecidableEq, Repr

/-- The calibration register file `CAL[0..11]` under its twelve alias names (R21); each register is 16 bits. -/
structure CalSet where
  /-- `CAL[0]`, U16. -/
  digT1 : Half
  /-- `CAL[1]`, S16. -/
  digT2 : Half
  /-- `CAL[2]`, S16. -/
  digT3 : Half
  /-- `CAL[3]`, U16. -/
  digP1 : Half
  /-- `CAL[4]`, S16. -/
  digP2 : Half
  /-- `CAL[5]`, S16. -/
  digP3 : Half
  /-- `CAL[6]`, S16. -/
  digP4 : Half
  /-- `CAL[7]`, S16. -/
  digP5 : Half
  /-- `CAL[8]`, S16. -/
  digP6 : Half
  /-- `CAL[9]`, S16. -/
  digP7 : Half
  /-- `CAL[10]`, S16. -/
  digP8 : Half
  /-- `CAL[11]`, S16. -/
  digP9 : Half
deriving DecidableEq, Repr

/-- The whole mutable state of the block (R20); the GPIO unit has none (R29). -/
structure Block where
  /-- `CAL[0..11]` (R21). -/
  cal : CalSet
  /-- `CAL_VALID` (R23). -/
  calValid : Bool
  /-- `T_FINE` (R24), an S32. -/
  tFine : Word
  /-- `TSEQ` (R25). -/
  tseq : Tseq
deriving DecidableEq, Repr

/-! ### Responses and events -/

/-- The causes of R161. `Status.code` gives the 8-bit code; the codes `0x06` to `0xFF` are never produced. -/
inductive Status where
  | ok
  | ioError
  | invalidPin
  | illegalCommand
  | notCalibrated
  | tFineUnset
deriving DecidableEq, Repr

/-- The response record `RSP` (R31, R69). -/
structure Response where
  status : Status
  d0 : Word
  d1 : Word
deriving DecidableEq, Repr

/-- The three outcomes of a `BusRead(addr, n)` (R41). -/
inductive BusOutcome where
  /-- `Ok(b)` with exactly n bytes. -/
  | ok (bytes : List Byte)
  /-- `Short(k)`: k < n bytes were delivered; the block never uses them. -/
  | short (delivered : Nat)
  /-- `Fail`: the underlying channel read failed. -/
  | fail
deriving DecidableEq, Repr

/-- One event of a run (R57, D14): a command accepted, a transaction with its arguments and outcome, or a response. -/
inductive Event where
  | command (word : Word)
  | busRead (addr : Byte) (count : Nat) (outcome : BusOutcome)
  | memRead (offset : Word) (value : Word)
  | memWrite (offset : Word) (value : Word)
  | response (rsp : Response)
deriving DecidableEq, Repr

/-! ### The environment -/

/-- A byte space held as address and byte pairs in canonical form: addresses strictly rising, no entry equal to what an
unlisted address reads as (`Memory.wf`). The sensor register space and the GPIO bank are held so (R32). -/
abbrev Memory := List Host.Cell

/-- One entry of the sensor's script, consumed by one `BusRead` (R56: "unless the test scripts a Short or Fail"). -/
inductive ScriptEntry where
  /-- The channel gives this answer. -/
  | answer (a : BusAnswer)
  /-- The channel never answers (R202, U10). -/
  | silence
  /-- Nothing is scripted for this transaction: the sensor answers as its kind says. -/
  | unscripted
deriving DecidableEq, Repr

/-- What answers a `BusRead` that no script entry decides. -/
inductive SensorKind where
  /-- Any answer whatever: a free value (R40, U17). -/
  | oracle
  /-- StaticSensor(REG) of R56. -/
  | static
deriving DecidableEq, Repr

/-- What answers a `MemRead` and keeps a `MemWrite`. -/
inductive BankKind where
  /-- Any answer whatever: the scripted words first, then free values (R40). -/
  | oracle
  /-- FaithfulBank of R56. -/
  | faithful
deriving DecidableEq, Repr

/-- One word write to the GPIO bank by another agent (R53, R55, R197). -/
structure BankWrite where
  offset : Word
  value : Word
deriving DecidableEq, Repr

/-- The environment: whatever answers the two channels. None of it is state of the block (R20, R40). -/
structure Env where
  /-- What answers an unscripted `BusRead`. -/
  sensor : SensorKind
  /-- REG of StaticSensor: the 256 bytes of the sensor register space. -/
  sensorMem : Memory
  /-- The scripted answers to the next `BusRead`s, next first. -/
  busScript : List ScriptEntry
  /-- What answers a `MemRead`. -/
  bank : BankKind
  /-- The bytes of FaithfulBank's words, little-endian (R45 (c)), by bank byte offset. -/
  bankMem : Memory
  /-- The oracle bank's answers to the next `MemRead`s, next first. -/
  memScript : List Word
  /-- For each coming transaction on the bank, the writes other agents make just before it (R55). An empty list, or
  lists that are all empty, is the premise of exclusive access. -/
  others : List (List BankWrite)
  /-- How many free values have been drawn; the next one drawn is number `draws`. The model's own field. -/
  draws : Nat
deriving DecidableEq, Repr

/-! ### The machine's state -/

structure State where
  /-- The configuration constants (R28). -/
  cfg : Config
  /-- The state elements of the block (R20). -/
  block : Block
  /-- `RSP` (R31): the last response delivered, none before the first command ends. -/
  rsp : Option Response
  /-- The command words the host is going to present, next first. State of the host, not of the block (R26, R70). -/
  hostCommands : List Word
  /-- The environment. -/
  env : Env
  /-- Every event since reset, oldest first (R57, D14). Not stored in the block. -/
  trace : List Event
deriving DecidableEq, Repr

/-- Why a step can stop for good. -/
inductive Fault where
  /-- Raised by RDCAL and RDRAW when the register channel never answers: R202, "A channel that never answers leaves the
  command, and the block, stuck" (U10). Safe: the hardware does not go on either. -/
  | channelNeverAnswers
deriving DecidableEq, Repr

/-- Why a step can have no meaning. -/
inductive Refusal where
  /-- Raised by an arm of `exec` whose instruction has no meaning yet; no arm is such now. Safe: nothing is claimed. -/
  | notModelled (mnemonic : String)
deriving DecidableEq, Repr

/-! ### Reset -/

/-- `CAL[0..11]` at reset: the spec gives no value (R21); the zeros are DESIGN CHOICE, unsafe, log entry 1. -/
def CalSet.reset : CalSet where
  digT1 := 0#16
  digT2 := 0#16
  digT3 := 0#16
  digP1 := 0#16
  digP2 := 0#16
  digP3 := 0#16
  digP4 := 0#16
  digP5 := 0#16
  digP6 := 0#16
  digP7 := 0#16
  digP8 := 0#16
  digP9 := 0#16

/-- The block after reset: `CAL_VALID = 0` (R23), `TSEQ = UNSET` (R25). `CAL` and `T_FINE` have no value in the spec
(R21, R24); the zeros are DESIGN CHOICE, unsafe, log entry 1. -/
def Block.reset : Block where
  cal := CalSet.reset
  calValid := false
  tFine := 0#32
  tseq := .unset

/-- The environment beside a block that has just been reset: both ends are oracles and nothing is scripted (R40). Reset
issues no transaction and touches neither space (R192). DESIGN CHOICE, log entries 3 and 7. -/
def Env.reset : Env where
  sensor := .oracle
  sensorMem := []
  busScript := []
  bank := .oracle
  bankMem := []
  memScript := []
  others := []
  draws := 0

/-- The machine right after reset (R190, R191). DESIGN CHOICE: the default configuration (log entry 2), no word presented
(log entry 7), no response (log entry 16), no event recorded (log entry 17). -/
def State.reset : State where
  cfg := Config.default
  block := Block.reset
  rsp := none
  hostCommands := []
  env := Env.reset
  trace := []

end Sys2Proof.Machine
end

