-- ==== Sys2Proof/Machine/Flags.lean ====
section
/-! DEFINITION. Flags.lean: the only status flags of the block, `CAL_VALID` and `TSEQ` (spec/10_state.md R23, R25, R27),
the stale bit derived from `TSEQ` (spec/30_encoding.md R69) and the status codes (spec/60_exceptions.md R161). No
arithmetic flag exists (R27). -/
namespace Sys2Proof.Machine

/-- The 2-bit encoding of the phase (R25). -/
def Tseq.code : Tseq → BitVec 2
  | .unset => 0b00#2
  | .fresh => 0b01#2
  | .consumed => 0b10#2

/-- The phase after a CMPT that ends `OK` (R25). -/
def Tseq.afterCmpt : Tseq → Tseq
  | .unset => .fresh
  | .fresh => .fresh
  | .consumed => .fresh

/-- The phase after a CMPP that ends `OK` (R25); in `UNSET` no CMPP ends `OK`. -/
def Tseq.afterCmpp : Tseq → Tseq
  | .unset => .unset
  | .fresh => .consumed
  | .consumed => .consumed

/-- The advisory bit of a CMPP response: 1 if the phase was `CONSUMED` when the command began (R69, R109). -/
def Tseq.stale : Tseq → Bool
  | .unset => false
  | .fresh => false
  | .consumed => true

/-- The status codes of R161. -/
def Status.code : Status → BitVec 8
  | .ok => 0x00#8
  | .ioError => 0x01#8
  | .invalidPin => 0x02#8
  | .illegalCommand => 0x03#8
  | .notCalibrated => 0x04#8
  | .tFineUnset => 0x05#8

end Sys2Proof.Machine
end

