-- ==== Sys2Proof/Machine/Memory.lean ====
section
/-! DEFINITION. Memory.lean: byte spaces in canonical form, and the little-endian words built from their bytes
(spec/20_memory.md R45, R56). The block owns no memory (R20); these hold the two ends of its channels. -/
namespace Sys2Proof.Machine

/-- What an unlisted byte of an environment's space reads as. The spec gives none; DESIGN CHOICE, unsafe, log entry 6. -/
def Memory.blank : Byte := 0#8

/-- The canonical form: addresses strictly rising, no entry equal to what an unlisted address reads as. -/
abbrev Memory.wf (m : Memory) : Prop :=
  List.Pairwise (fun c d : Host.Cell => c.1 < d.1) m ∧ ∀ c ∈ m, c.2 ≠ Memory.blank

/-- Read one byte. -/
def Memory.get : Memory → Nat → Byte
  | [], _ => Memory.blank
  | (k, v) :: rest, a => if k = a then v else Memory.get rest a

/-- The cell for a byte at the head of a list, left out where it is what an unlisted address reads as. -/
def Memory.cons (a : Nat) (v : Byte) (m : Memory) : Memory := if v = Memory.blank then m else (a, v) :: m

/-- Write one byte, keeping the canonical form. -/
def Memory.set : Memory → Nat → Byte → Memory
  | [], a, v => Memory.cons a v []
  | (k, u) :: rest, a, v =>
    if a < k then Memory.cons a v ((k, u) :: rest)
    else if a = k then Memory.cons a v rest
    else (k, u) :: Memory.set rest a v

/-- The bytes at `a, a+1, ..., a+n-1` (R42). -/
def Memory.slice (m : Memory) (a n : Nat) : List Byte := (List.range n).map fun i => m.get (a + i)

/-- Byte k of a word: bits `8k+7 : 8k` (R45 (c)). -/
def byteOfWord (w : Word) (k : Nat) : Byte := w.extractLsb' (8 * k) 8

/-- The little-endian word whose bytes lie at `a` to `a+3` (R45 (c)). -/
def Memory.load32 (m : Memory) (a : Nat) : Word := m.get (a + 3) ++ m.get (a + 2) ++ m.get (a + 1) ++ m.get a

/-- Store a word's four bytes, the least significant at `a` (R45 (c)). -/
def Memory.store32 (m : Memory) (a : Nat) (w : Word) : Memory :=
  (((m.set a (byteOfWord w 0)).set (a + 1) (byteOfWord w 1)).set (a + 2) (byteOfWord w 2)).set (a + 3) (byteOfWord w 3)

end Sys2Proof.Machine
end

