-- ==== Sys2Proof/Machine/Arith.lean ====
section
/-! DEFINITION. Arith.lean: the 32-bit arithmetic primitives of spec/00_scope.md R10. Every result is reduced modulo 2^32,
never widened, saturated or trapped, and sets no flag (R100). -/
namespace Sys2Proof.Machine

/-- `(U(a) + U(b)) mod 2^32`. -/
def add32 (a b : Word) : Word := a + b

/-- `(U(a) - U(b)) mod 2^32`. -/
def sub32 (a b : Word) : Word := a - b

/-- `(U(a) * U(b)) mod 2^32`. -/
def mul32 (a b : Word) : Word := a * b

/-- Arithmetic right shift: `S(r) = floor(S(a) / 2^n)`. -/
def asr32 (a : Word) (n : Nat) : Word := a.sshiftRight n

/-- Logical right shift: `floor(U(a) / 2^n)`. -/
def lsr32 (a : Word) (n : Nat) : Word := a >>> n

/-- Left shift: `(U(a) * 2^n) mod 2^32`. -/
def shl32 (a : Word) (n : Nat) : Word := a <<< n

/-- Unsigned division `floor(U(a) / U(b))`; the rules evaluate it only for `U(b) != 0` (R10, R107). -/
def udiv32 (a b : Word) : Word := a / b

/-- `U(a) < U(b)`. -/
def ult32 (a b : Word) : Bool := a.ult b

end Sys2Proof.Machine
end

