-- ==== Sys2Proof/Machine/Operands.lean ====
section
/-! DEFINITION. Operands.lean: every operand form of the eight commands: the bytes of the two sensor blocks
(spec/40_sensor_read.md R80, R84), the widening of constants and counts (spec/41_compensation.md R102), the pin range
check, the address decoder and the bit-mapper (spec/42_gpio.md R130 to R134). -/
namespace Sys2Proof.Machine

/-! ### Bytes of a sensor block -/

/-- `b[i]`. The parsers are applied only to lists that hold it (`BusOutcome.ok` carries exactly the bytes asked for). -/
def byteAt (b : List Byte) (i : Nat) : Byte := b.getD i 0#8

/-- The little-endian constant k of the calibration block: `{b[2k+1], b[2k]}` (R80). -/
def calConstant (b : List Byte) (k : Nat) : Half := byteAt b (2 * k + 1) ++ byteAt b (2 * k)

/-- `ParseCal(b)`: the twelve constants in the order of R21. -/
def parseCal (b : List Byte) : CalSet where
  digT1 := calConstant b 0
  digT2 := calConstant b 1
  digT3 := calConstant b 2
  digP1 := calConstant b 3
  digP2 := calConstant b 4
  digP3 := calConstant b 5
  digP4 := calConstant b 6
  digP5 := calConstant b 7
  digP6 := calConstant b 8
  digP7 := calConstant b 9
  digP8 := calConstant b 10
  digP9 := calConstant b 11

/-- `CAL[i]` by index (R21). -/
def CalSet.reg (c : CalSet) (i : Fin 12) : Half :=
  match i with
  | 0 => c.digT1
  | 1 => c.digT2
  | 2 => c.digT3
  | 3 => c.digP1
  | 4 => c.digP2
  | 5 => c.digP3
  | 6 => c.digP4
  | 7 => c.digP5
  | 8 => c.digP6
  | 9 => c.digP7
  | 10 => c.digP8
  | 11 => c.digP9

/-- A raw count from MSB, LSB and the top four bits of XLSB, the MSB at `b[i]` (R84). -/
def rawCount (b : List Byte) (i : Nat) : Count :=
  byteAt b i ++ byteAt b (i + 1) ++ (byteAt b (i + 2)).extractLsb' 4 4

/-- The pair of `AsmRaw(b)` (R84, C11). -/
structure RawSample where
  adcTemperature : Count
  adcPressure : Count
deriving DecidableEq, Repr

/-- `AsmRaw(b)`: "pressure bytes precede temperature bytes in the block". -/
def asmRaw (b : List Byte) : RawSample where
  adcPressure := rawCount b 0
  adcTemperature := rawCount b 3

/-! ### Widening (R102) -/

/-- `zext_32` of a constant: `dig_T1` and `dig_P1`. -/
def zextHalf (h : Half) : Word := h.setWidth 32

/-- `sext_32` of a constant: the other ten. -/
def sextHalf (h : Half) : Word := h.signExtend 32

/-- `zext_32` of a raw count. -/
def zextCount (c : Count) : Word := c.setWidth 32

/-- `zext_32` of a single bit. -/
def zextBit (b : Bool) : Word := if b then 1#32 else 0#32

/-! ### Pins -/

/-- The pin range check of R130. -/
def pinValid (pin : Nat) : Bool := decide (pin < pinCount)

/-- `pin div 32` (R131). -/
def levelWord (pin : Nat) : Nat := pin / pinsPerWord

/-- `pin mod 32` (R131). -/
def levelBit (pin : Nat) : Nat := pin % pinsPerWord

/-- `pin div 10` (R132). -/
def fselWord (pin : Nat) : Nat := pin / fselPerWord

/-- `bit_offset = (pin mod 10) * 3` (R132). -/
def fselShift (pin : Nat) : Nat := (pin % fselPerWord) * fselBits

/-- `BLOCK_OFF + 4 * word_index` (R44, R131). -/
def wordOffset (blockOff : Word) (index : Nat) : Word := blockOff + BitVec.ofNat 32 (4 * index)

/-- The offset of the set word of a pin. -/
def setAddr (c : Config) (pin : Nat) : Word := wordOffset c.setOff (levelWord pin)

/-- The offset of the clear word of a pin. -/
def clrAddr (c : Config) (pin : Nat) : Word := wordOffset c.clrOff (levelWord pin)

/-- The offset of the level word of a pin. -/
def levAddr (c : Config) (pin : Nat) : Word := wordOffset c.levOff (levelWord pin)

/-- The offset of the function-select word of a pin (R132). -/
def fselAddr (c : Config) (pin : Nat) : Word := wordOffset c.fselOff (fselWord pin)

/-- `M1(pin)`: the one-bit mask (R133). -/
def mask1 (pin : Nat) : Word := shl32 1#32 (levelBit pin)

/-- `M3(pin)`: the field mask (R133). -/
def mask3 (pin : Nat) : Word := shl32 0b111#32 (fselShift pin)

/-- The function-select code of an input (R133). -/
def fselInput : Word := 0b000#32

/-- The function-select code of an output (R133). -/
def fselOutput : Word := 0b001#32

/-- The new word of a read-modify-write with code c (R133). -/
def fselInsert (old : Word) (pin : Nat) (code : Word) : Word := (old &&& ~~~(mask3 pin)) ||| shl32 code (fselShift pin)

/-- The three bits of a pin's field in a function-select word (R132). -/
def fselField (word : Word) (pin : Nat) : BitVec 3 := word.extractLsb' (fselShift pin) 3

end Sys2Proof.Machine
end

