-- ==== Sys2Proof/Machine/Ops.lean ====
section
/-! DEFINITION. Ops.lean: the named operations every meaning is built from: the two channels (spec/20_memory.md R41, R43,
R56), the writes of the block's state (spec/10_state.md), the end of a command with a response or an error
(spec/00_scope.md R11, spec/60_exceptions.md R160), the host's side of the command port (spec/30_encoding.md R70) and what
the host observes (R35). -/
namespace Sys2Proof.Machine

/-! ### Small writes of the state -/

/-- Append an event to the trace (R57). -/
def State.log (s : State) (e : Event) : State := { s with trace := s.trace ++ [e] }

/-- Replace the environment. -/
def State.setEnv (s : State) (e : Env) : State := { s with env := e }

/-- Replace the block's state elements. -/
def State.setBlock (s : State) (b : Block) : State := { s with block := b }

/-- Load all twelve constants and set `CAL_VALID` (R81: "all twelve written together"). -/
def Block.loadCal (b : Block) (c : CalSet) : Block := { b with cal := c, calValid := true }

/-- Store `T_FINE` and move the sequencer as a CMPT does (R104, R110). -/
def Block.storeTFine (b : Block) (t : Word) : Block := { b with tFine := t, tseq := b.tseq.afterCmpt }

/-- Move the sequencer as a CMPP does (R109, R110). -/
def Block.consumeTFine (b : Block) : Block := { b with tseq := b.tseq.afterCmpp }

/-! ### The end of a command -/

/-- Deliver a response: the last event of a command (R31, R69). -/
def State.deliver (s : State) (r : Response) : State := { s with rsp := some r, trace := s.trace ++ [.response r] }

/-- `respond(d0, d1)` (R11): status `OK` and the two result words. -/
def State.respond (s : State) (d0 d1 : Word) : State := s.deliver ⟨.ok, d0, d1⟩

/-- `raise <Error>` (R160): taking an exception. The response is the whole report: the error's status with
`d0 = d1 = 0`, no state element written, no further transaction, no vector, no saved state, no mode (R168). There is no
return from it (R169): the block is ready for the next command at once. -/
def State.raise (s : State) (e : Status) : State := s.deliver ⟨e, 0#32, 0#32⟩

/-! ### RegisterChannel (R41) -/

/-- What an answer to `read_bytes(addr, n)` is: exactly n bytes `Ok`, fewer `Short`. More than n bytes is outside the
channel's contract and counts as a failure (R162, C9; log entry 8). -/
def busOutcome (a : BusAnswer) (n : Nat) : BusOutcome :=
  match a with
  | .delivered bytes =>
    if bytes.length = n then .ok bytes else if bytes.length < n then .short bytes.length else .fail
  | .failed => .fail

/-- The answer to a `BusRead` that no script entry decides: StaticSensor's bytes (R56) or a free value (R40, U17). -/
def Env.unscriptedBusRead (e : Env) (addr : Byte) (n : Nat) : BusOutcome × Env :=
  match e.sensor with
  | .static => (.ok (e.sensorMem.slice addr.toNat n), e)
  | .oracle => (busOutcome (Config.freeBusAnswer e.draws) n, { e with draws := e.draws + 1 })

/-- The environment's answer to `BusRead(addr, n)`; `none` where the channel never answers (R202, U10). -/
def Env.busRead (e : Env) (addr : Byte) (n : Nat) : Option (BusOutcome × Env) :=
  match e.busScript with
  | .silence :: _ => none
  | .answer a :: rest => some (busOutcome a n, { e with busScript := rest })
  | .unscripted :: rest => some (({ e with busScript := rest } : Env).unscriptedBusRead addr n)
  | [] => some (e.unscriptedBusRead addr n)

/-- One `BusRead` transaction of the block, logged with its outcome (R57). -/
def State.busRead (s : State) (addr : Byte) (n : Nat) : Option (BusOutcome × State) :=
  match s.env.busRead addr n with
  | none => none
  | some a => some (a.1, (s.setEnv a.2).log (.busRead addr n a.1))

/-! ### MemoryRegisterChannel (R43) and the bank behind it (R48, R56) -/

/-- The four groups of words of the bank (R50). -/
inductive Region where
  | fsel
  | set
  | clear
  | level
deriving DecidableEq, Repr

/-- The word index of an offset inside a block of so many words, if it is the offset of one. -/
def wordIndex (blockOff : Word) (words : Nat) (off : Word) : Option Nat :=
  let d := off.toNat - blockOff.toNat
  if blockOff.toNat ≤ off.toNat ∧ d % 4 = 0 ∧ d / 4 < words then some (d / 4) else none

/-- Which word of which block lies at an offset (R50); `none` for every other offset. -/
def regionOf (c : Config) (off : Word) : Option (Region × Nat) :=
  match wordIndex c.fselOff fselWords off with
  | some w => some (.fsel, w)
  | none =>
    match wordIndex c.setOff levelWords off with
    | some w => some (.set, w)
    | none =>
      match wordIndex c.clrOff levelWords off with
      | some w => some (.clear, w)
      | none =>
        match wordIndex c.levOff levelWords off with
        | some w => some (.level, w)
        | none => none

/-- The byte offset where FaithfulBank keeps `FSEL[w]`. -/
def fselByte (c : Config) (w : Nat) : Nat := c.fselOff.toNat + 4 * w

/-- The byte offset where FaithfulBank keeps `LEVEL[w]`. -/
def levelByte (c : Config) (w : Nat) : Nat := c.levOff.toNat + 4 * w

/-- A word write to FaithfulBank (R56). A write to a level word is ignored (U6); no other access is defined there, and a
write to another offset is ignored (log entry 9). -/
def bankPut (c : Config) (m : Memory) (w : BankWrite) : Memory :=
  match regionOf c w.offset with
  | some (.fsel, i) => m.store32 (fselByte c i) w.value
  | some (.set, i) => m.store32 (levelByte c i) (m.load32 (levelByte c i) ||| w.value)
  | some (.clear, i) => m.store32 (levelByte c i) (m.load32 (levelByte c i) &&& ~~~w.value)
  | some (.level, _) => m
  | none => m

/-- A word read of FaithfulBank (R56); `none` where the spec gives no value: set and clear words (U6), other offsets. -/
def bankGet (c : Config) (m : Memory) (off : Word) : Option Word :=
  match regionOf c off with
  | some (.fsel, i) => some (m.load32 (fselByte c i))
  | some (.set, _) => none
  | some (.clear, _) => none
  | some (.level, i) => some (m.load32 (levelByte c i))
  | none => none

/-- Word writes reach the bank; an oracle keeps nothing (R40). -/
def Env.bankUpdate (e : Env) (c : Config) (ws : List BankWrite) : Env :=
  match e.bank with
  | .oracle => e
  | .faithful => { e with bankMem := ws.foldl (bankPut c) e.bankMem }

/-- The writes other agents make just before the block's next transaction on the bank (R55). -/
def Env.interfere (e : Env) (c : Config) : Env :=
  match e.others with
  | [] => e
  | ws :: rest => { e.bankUpdate c ws with others := rest }

/-- A word that the environment is free to choose. -/
def Env.freeWord (e : Env) : Word × Env := (Config.freeWord e.draws, { e with draws := e.draws + 1 })

/-- The bank's answer to a read, after any interference. -/
def Env.bankAnswer (e : Env) (c : Config) (off : Word) : Word × Env :=
  match e.bank with
  | .faithful =>
    match bankGet c e.bankMem off with
    | some w => (w, e)
    | none => e.freeWord
  | .oracle =>
    match e.memScript with
    | w :: rest => (w, { e with memScript := rest })
    | [] => e.freeWord

/-- One `MemRead(off, 4)` transaction: it always yields a word (R43). -/
def State.memRead (s : State) (off : Word) : Word × State :=
  let a := (s.env.interfere s.cfg).bankAnswer s.cfg off
  (a.1, (s.setEnv a.2).log (.memRead off a.1))

/-- One `MemWrite(off, 4, v)` transaction: it always completes (R43). -/
def State.memWrite (s : State) (off v : Word) : State :=
  (s.setEnv ((s.env.interfere s.cfg).bankUpdate s.cfg [⟨off, v⟩])).log (.memWrite off v)

/-- The premise of exclusive access (R55, R197): no other agent writes the bank before any coming transaction. -/
abbrev Env.Exclusive (e : Env) : Prop := ∀ ws ∈ e.others, ws = []

/-! ### The host's side of the command port -/

/-- The block takes the next command the host presents, one at a time (R70), and the run records it (D14). -/
def State.takeCommand (s : State) : Option (Word × State) :=
  match s.hostCommands with
  | [] => none
  | w :: rest => some (w, { s with hostCommands := rest, trace := s.trace ++ [.command w] })

/-- The host is about to present `w` before anything else it was going to present. -/
def State.present (s : State) (w : Word) : State := { s with hostCommands := w :: s.hostCommands }

/-- What the host sees of the block between commands (R35). `CAL` while `CAL_VALID = 0` and `T_FINE` while
`TSEQ = UNSET` are given no value, as R35 asks of a model. -/
structure Observation where
  cal : Option CalSet
  calValid : Bool
  tFine : Option Word
  tseq : Tseq
deriving DecidableEq, Repr

/-- The read-only outputs of R35; observing changes nothing. -/
def Block.observe (b : Block) : Observation where
  cal := if b.calValid then some b.cal else none
  calValid := b.calValid
  tFine := if b.tseq = .unset then none else some b.tFine
  tseq := b.tseq

end Sys2Proof.Machine
end

