-- ==== Sys2Proof/Machine/Compensation.lean ====
section
/-! DEFINITION. Compensation.lean: the compensation arithmetic and CMPT, CMPP (spec/41_compensation.md). The step lists are
those of R103 and R106, step for step and under their names; the spec marks their text as from general knowledge. -/
namespace Sys2Proof.Machine

/-- The pair `(t_fine, T)` of TempComp (R103). -/
structure TempResult where
  tFine : Word
  temp : Word
deriving DecidableEq, Repr

/-- The first term of the temperature formula (R103: `a`, `prod1`, `var1`). -/
def tempVar1 (t1 t2 adcT : Word) : Word :=
  let a := sub32 (asr32 adcT 3) (shl32 t1 1)
  let prod1 := mul32 a t2
  asr32 prod1 11

/-- The second term of the temperature formula (R103: `d`, `sq`, `sq12`, `prod2`, `var2`). -/
def tempVar2 (t1 t3 adcT : Word) : Word :=
  let d := sub32 (asr32 adcT 4) t1
  let sq := mul32 d d
  let sq12 := asr32 sq 12
  let prod2 := mul32 sq12 t3
  asr32 prod2 14

/-- `TempComp(T1, T2, T3, adc_T)` (R103). -/
def tempComp (t1 t2 t3 adcT : Word) : TempResult :=
  let tFine := add32 (tempVar1 t1 t2 adcT) (tempVar2 t1 t3 adcT)
  { tFine := tFine, temp := asr32 (add32 (mul32 tFine 5#32) 128#32) 8 }

/-- The widened constants `P1..P9` (R102, R106). -/
structure PressParams where
  p1 : Word
  p2 : Word
  p3 : Word
  p4 : Word
  p5 : Word
  p6 : Word
  p7 : Word
  p8 : Word
  p9 : Word
deriving DecidableEq, Repr

/-- `v1a` (R106). -/
def pressV1a (tFine : Word) : Word := sub32 (asr32 tFine 1) 64000#32

/-- `qq` (R106). -/
def pressQq (tFine : Word) : Word :=
  let q := asr32 (pressV1a tFine) 2
  mul32 q q

/-- `v2c` (R106). -/
def pressV2c (c : PressParams) (tFine : Word) : Word :=
  let v1a := pressV1a tFine
  let v2a := mul32 (asr32 (pressQq tFine) 11) c.p6
  let v2b := add32 v2a (shl32 (mul32 v1a c.p5) 1)
  add32 (asr32 v2b 2) (shl32 c.p4 16)

/-- `v1c`, the divisor (R106, R107). -/
def pressV1c (c : PressParams) (tFine : Word) : Word :=
  let x := asr32 (mul32 c.p3 (asr32 (pressQq tFine) 13)) 3
  let y := asr32 (mul32 c.p2 (pressV1a tFine)) 1
  let v1b := asr32 (add32 x y) 18
  asr32 (mul32 (add32 32768#32 v1b) c.p1) 15

/-- `p1`, the dividend (R106). -/
def pressDividend (c : PressParams) (tFine adcP : Word) : Word :=
  let p0 := sub32 (sub32 1048576#32 adcP) (asr32 (pressV2c c tFine) 12)
  mul32 p0 3125#32

/-- The division step of R106 with the branch of R108. -/
def pressDivide (p1 dvs : Word) : Word :=
  if ult32 p1 0x80000000#32 then udiv32 (shl32 p1 1) dvs else mul32 (udiv32 p1 dvs) 2#32

/-- The steps after the division (R106: `r`, `rr`, `w1`, `w2`, `adj`, `p`). -/
def pressAdjust (c : PressParams) (p2 : Word) : Word :=
  let r := lsr32 p2 3
  let rr := mul32 r r
  let w1 := asr32 (mul32 c.p9 (lsr32 rr 13)) 12
  let w2 := asr32 (mul32 (lsr32 p2 2) c.p8) 13
  let adj := asr32 (add32 (add32 w1 w2) c.p7) 4
  add32 p2 adj

/-- `PressComp(P1..P9, t_fine, adc_P)` (R106). A zero divisor returns 0 and nothing after it is evaluated (R107). -/
def pressComp (c : PressParams) (tFine adcP : Word) : Word :=
  let v1c := pressV1c c tFine
  if v1c = 0#32 then 0#32 else pressAdjust c (pressDivide (pressDividend c tFine adcP) v1c)

/-- TempComp on the block's constants, widened as R102 says (R104). -/
def tempOf (cal : CalSet) (raw : Count) : TempResult :=
  tempComp (zextHalf cal.digT1) (sextHalf cal.digT2) (sextHalf cal.digT3) (zextCount raw)

/-- The pressure constants widened as R102 says (R109). -/
def pressParams (cal : CalSet) : PressParams where
  p1 := zextHalf cal.digP1
  p2 := sextHalf cal.digP2
  p3 := sextHalf cal.digP3
  p4 := sextHalf cal.digP4
  p5 := sextHalf cal.digP5
  p6 := sextHalf cal.digP6
  p7 := sextHalf cal.digP7
  p8 := sextHalf cal.digP8
  p9 := sextHalf cal.digP9

/-- PressComp on the block's constants (R109). -/
def pressureOf (cal : CalSet) (tFine : Word) (raw : Count) : Word := pressComp (pressParams cal) tFine (zextCount raw)

/-- CMPT that finds its constants (R104). -/
def cmptFinish (raw : Count) (s : State) : State :=
  let r := tempOf s.block.cal raw
  (s.setBlock (s.block.storeTFine r.tFine)).respond r.temp 0#32

/-- CMPT (R104). -/
def execCmpt (raw : Count) (s : State) : Host.Outcome State Fault Refusal :=
  .next (if s.block.calValid then cmptFinish raw s else s.raise .notCalibrated)

/-- CMPP that finds its constants and a `T_FINE` (R109). -/
def cmppFinish (raw : Count) (s : State) : State :=
  (s.setBlock s.block.consumeTFine).respond (pressureOf s.block.cal s.block.tFine raw) (zextBit s.block.tseq.stale)

/-- CMPP (R109); `NotCalibrated` comes before `TFineUnset` (R167). -/
def execCmpp (raw : Count) (s : State) : Host.Outcome State Fault Refusal :=
  .next
    (if s.block.calValid then
      if s.block.tseq = .unset then s.raise .tFineUnset else cmppFinish raw s
    else s.raise .notCalibrated)

end Sys2Proof.Machine
end

