-- ==== Sys2Proof/Machine/Gpio.lean ====
section
/-! DEFINITION. Gpio.lean: GSET, GGET, GDIN and GDOUT (spec/42_gpio.md). The pin check precedes every transaction
(R130, D19); no GPIO command reads or writes a state element of the block (R29). -/
namespace Sys2Proof.Machine

/-- The body of GSET (R135), which is also the last step of GDOUT (R71, R139): one `MemWrite` of the one-bit mask. -/
def levelWrite (pin : Nat) (value : Bool) (s : State) : State :=
  s.memWrite (if value then setAddr s.cfg pin else clrAddr s.cfg pin) (mask1 pin)

/-- `FselRMW(pin, c)` (R137): one `MemRead`, then one `MemWrite` to the same offset, issued even when nothing changes. -/
def fselRmw (pin : Nat) (code : Word) (s : State) : State :=
  let r := s.memRead (fselAddr s.cfg pin)
  r.2.memWrite (fselAddr s.cfg pin) (fselInsert r.1 pin code)

/-- GSET (R135). -/
def execGset (pin : Nat) (value : Bool) (s : State) : Host.Outcome State Fault Refusal :=
  .next (if pinValid pin then (levelWrite pin value s).respond 0#32 0#32 else s.raise .invalidPin)

/-- GGET on a valid pin (R136). -/
def ggetFinish (pin : Nat) (s : State) : State :=
  let r := s.memRead (levAddr s.cfg pin)
  r.2.respond (zextBit (r.1.getLsbD (levelBit pin))) 0#32

/-- GGET (R136). -/
def execGget (pin : Nat) (s : State) : Host.Outcome State Fault Refusal :=
  .next (if pinValid pin then ggetFinish pin s else s.raise .invalidPin)

/-- GDIN (R138). -/
def execGdin (pin : Nat) (s : State) : Host.Outcome State Fault Refusal :=
  .next (if pinValid pin then (fselRmw pin fselInput s).respond 0#32 0#32 else s.raise .invalidPin)

/-- GDOUT (R139): direction first, level second. -/
def execGdout (pin : Nat) (value : Bool) (s : State) : Host.Outcome State Fault Refusal :=
  .next
    (if pinValid pin then (levelWrite pin value (fselRmw pin fselOutput s)).respond 0#32 0#32
    else s.raise .invalidPin)

end Sys2Proof.Machine
end

