-- ==== Sys2Proof/Machine/SensorRead.lean ====
section
/-! DEFINITION. SensorRead.lean: RDCAL and RDRAW (spec/40_sensor_read.md). Each issues exactly one `BusRead` and never
retries (R170). A channel that never answers leaves the command stuck (R202, U10), in the fault `channelNeverAnswers`
(DESIGN CHOICE, log entry 24). -/
namespace Sys2Proof.Machine

/-- RDCAL after its transaction (R81, R82). -/
def rdcalFinish (o : BusOutcome) (s : State) : State :=
  match o with
  | .ok b => (s.setBlock (s.block.loadCal (parseCal b))).respond 0#32 0#32
  | .short _ => s.raise .ioError
  | .fail => s.raise .ioError

/-- RDCAL (R81). -/
def execRdcal (s : State) : Host.Outcome State Fault Refusal :=
  match s.busRead s.cfg.calibBase calibLen with
  | none => .fault .channelNeverAnswers
  | some a => .next (rdcalFinish a.1 a.2)

/-- RDRAW after its transaction (R85): temperature in `d0`, pressure in `d1` (R69). -/
def rdrawFinish (o : BusOutcome) (s : State) : State :=
  match o with
  | .ok b => s.respond (zextCount (asmRaw b).adcTemperature) (zextCount (asmRaw b).adcPressure)
  | .short _ => s.raise .ioError
  | .fail => s.raise .ioError

/-- RDRAW (R85); it writes no state element (R86). -/
def execRdraw (s : State) : Host.Outcome State Fault Refusal :=
  match s.busRead s.cfg.dataBase rawLen with
  | none => .fault .channelNeverAnswers
  | some a => .next (rdrawFinish a.1 a.2)

end Sys2Proof.Machine
end

