-- ==== Sys2Proof/Machine/Dispatch.lean ====
section
/-! DEFINITION. Dispatch.lean: one arm for each command (spec/30_encoding.md R63). -/
namespace Sys2Proof.Machine

def exec (i : Instr) (s : State) : Host.Outcome State Fault Refusal :=
  match i with
  | .rdcal => Sys2Proof.Machine.execRdcal s
  | .rdraw => Sys2Proof.Machine.execRdraw s
  | .cmpt raw => Sys2Proof.Machine.execCmpt raw s
  | .cmpp raw => Sys2Proof.Machine.execCmpp raw s
  | .gset pin value => Sys2Proof.Machine.execGset pin value s
  | .gget pin => Sys2Proof.Machine.execGget pin s
  | .gdin pin => Sys2Proof.Machine.execGdin pin s
  | .gdout pin value => Sys2Proof.Machine.execGdout pin value s

end Sys2Proof.Machine
end

