-- ==== Sys2Proof/Machine/Step.lean ====
section
/-! DEFINITION. Step.lean: one step is one command, presented by the host and run to completion (spec/30_encoding.md R70).
The block has no program counter and fetches nothing (spec/10_state.md R26). -/
namespace Sys2Proof.Machine

/-- Take the next command word, decode it, run it. An illegal word ends the command with status `IllegalCommand`
(R65, R164). With no command presented the block stays idle: its state changes only as the effect of a command (R172; log
entry 10). -/
def step (s : State) : Host.Outcome State Fault Refusal :=
  match s.takeCommand with
  | none => .next s
  | some t =>
    match decode t.1 with
    | .legal i => exec i t.2
    | .illegal _ => .next (t.2.raise .illegalCommand)

/-- `s` with the host about to present the opcode-table word `w` of `nbits` bits, the bits above being 0 (log entry 7). -/
def State.withFetchWord (s : State) (nbits w : Nat) : State := s.present (BitVec.ofNat 32 (w % 2 ^ nbits))

end Sys2Proof.Machine
end

