-- ==== Sys2Proof/Machine/Assembler.lean ====
section
/-! DEFINITION. Assembler.lean: the textual form of a command (spec/30_encoding.md R67): the mnemonic, then its operands
separated by a comma; decimal or `0x` hexadecimal numbers; one command a line; `;` starts a comment. Letters are taken as
R67 writes them, capitals in mnemonics and small `x`; hexadecimal digits in either case (DESIGN CHOICE, log entry 11). An
operand is its number, however that is spelled: the value operand too may be written `0x1` or `01` (DESIGN CHOICE, log entry
11). -/
namespace Sys2Proof.Machine

/-- A space between the parts of a line. -/
def isBlank (c : Char) : Bool := c = ' ' || c = '\t' || c = '\r'

/-- A line without the blanks around it. -/
def trimBlanks (l : List Char) : List Char := ((l.dropWhile isBlank).reverse.dropWhile isBlank).reverse

/-- The parts of a text between separators. -/
def splitOnChar (sep : Char) : List Char → List (List Char)
  | [] => [[]]
  | c :: cs =>
    if c = sep then [] :: splitOnChar sep cs
    else
      match splitOnChar sep cs with
      | [] => [[c]]
      | part :: parts => (c :: part) :: parts

/-- The value of a digit in base 10 or 16. -/
def digitValue (base : Nat) (c : Char) : Option Nat :=
  let n := c.toNat
  let v :=
    if 48 ≤ n ∧ n ≤ 57 then some (n - 48)
    else if 65 ≤ n ∧ n ≤ 70 then some (n - 55)
    else if 97 ≤ n ∧ n ≤ 102 then some (n - 87)
    else none
  v.filter (· < base)

/-- A digit string read on from a value. -/
def digitsValue (base : Nat) : List Char → Nat → Option Nat
  | [], n => some n
  | c :: cs, n =>
    match digitValue base c with
    | none => none
    | some d => digitsValue base cs (base * n + d)

/-- A number: decimal, or hexadecimal with `0x`; leading zeros do not matter, and `_` is no digit (DESIGN CHOICE, log entry
11). -/
def parseNumber : List Char → Option Nat
  | [] => none
  | ['0', 'x'] => none
  | '0' :: 'x' :: ds => digitsValue 16 ds 0
  | ds => digitsValue 10 ds 0

/-- All the numbers of an operand list, or none if one of them is no number. -/
def parseNumbers : List (List Char) → Option (List Nat)
  | [] => some []
  | t :: ts =>
    match parseNumber (trimBlanks t), parseNumbers ts with
    | some n, some ns => some (n :: ns)
    | _, _ => none

/-- The word of a one-operand command: `base | x` with `0 <= x <= 0xFFFFF`. -/
def asmArg (base : Word) (x : Nat) : Option Word := if x ≤ 0xFFFFF then some (base ||| BitVec.ofNat 32 x) else none

/-- The word of a pin-and-value command: `base | (v << 20) | pin` with `v` 0 or 1. R67 says the value operand "is written `0`
or `1`"; any spelling of a number with that value is accepted (DESIGN CHOICE, log entry 11). -/
def asmPinValue (base : Word) (pin v : Nat) : Option Word :=
  if pin ≤ 0xFFFFF ∧ v ≤ 1 then some (base ||| (BitVec.ofNat 32 v <<< 20) ||| BitVec.ofNat 32 pin) else none

/-- The word of a mnemonic and its operands, by the table of R67; operands out of range are rejected. -/
def assembleOp (mnemonic : List Char) (operands : List Nat) : Option Word :=
  match operands with
  | [] =>
    if mnemonic = "RDCAL".toList then some 0x01000000#32
    else if mnemonic = "RDRAW".toList then some 0x02000000#32
    else none
  | [x] =>
    if mnemonic = "CMPT".toList then asmArg 0x03000000#32 x
    else if mnemonic = "CMPP".toList then asmArg 0x04000000#32 x
    else if mnemonic = "GGET".toList then asmArg 0x11000000#32 x
    else if mnemonic = "GDIN".toList then asmArg 0x12000000#32 x
    else none
  | [pin, v] =>
    if mnemonic = "GSET".toList then asmPinValue 0x10000000#32 pin v
    else if mnemonic = "GDOUT".toList then asmPinValue 0x13000000#32 pin v
    else none
  | _ => none

/-- One line: nothing for a line that holds no command, which R67's "One command per line" leaves open (DESIGN CHOICE, log
entry 11), else the command's word or a rejection. -/
inductive AsmLine where
  | nothing
  | word (w : Word)
  | rejected
deriving DecidableEq, Repr

/-- Assemble one line of R67's syntax. A line with no command on it, empty, blank or comment only, is accepted and gives no
word, and a comment starts at the first `;` (DESIGN CHOICE, log entry 11). Operands are judged by their numbers, not by their spelling (DESIGN CHOICE, log entry
11). -/
def assembleLine (line : List Char) : AsmLine :=
  let code := trimBlanks (line.takeWhile (· ≠ ';'))
  let mnemonic := code.takeWhile (fun c => !isBlank c)
  let rest := trimBlanks (code.dropWhile (fun c => !isBlank c))
  if code = [] then .nothing
  else
    match (if rest = [] then some [] else parseNumbers (splitOnChar ',' rest)) with
    | none => .rejected
    | some operands =>
      match assembleOp mnemonic operands with
      | none => .rejected
      | some w => .word w

/-- The words of a list of lines: a line without a command adds none, and one rejected line rejects them all (DESIGN CHOICE,
log entry 11). -/
def assembleLines : List (List Char) → Option (List Word)
  | [] => some []
  | l :: ls =>
    match assembleLine l with
    | .nothing => assembleLines ls
    | .word w => (assembleLines ls).map (w :: ·)
    | .rejected => none

/-- Assemble a program text, at most one command a line, the lines ended by a line feed (R67; DESIGN CHOICE, log entry 11). -/
def assembleProgram (text : String) : Option (List Word) := assembleLines (splitOnChar '\n' text.toList)

end Sys2Proof.Machine
end

