-- ==== Sys2Proof/Machine/Measure.lean ====
section
/-! DEFINITION. Measure.lean: what the spec asks of the host. The pseudo-instruction MEASURE (spec/30_encoding.md R68), the
read-compensate cycle, is a host procedure over three commands, because the operands of the last two are results of the
first. The pin adapter of R64 is the host's duty towards `ARG`. -/
namespace Sys2Proof.Machine

/-- The host presents one command word and waits for the response. -/
def presentAndRun (w : Word) (s : State) : Host.Outcome State Fault Refusal := step (s.present w)

/-- The count that a response word of RDRAW carries: bits 19:0 (R68). -/
def countOf (d : Word) : Count := d.extractLsb' 0 20

/-- The two commands after an RDRAW that ended `OK` with these counts, the second whatever the status of the first is
(DEDUCED, log entry 27). -/
def measureCompensate (adcT adcP : Count) (s : State) : Host.Outcome State Fault Refusal :=
  match presentAndRun (encode (.cmpt adcT)) s with
  | .next s' => presentAndRun (encode (.cmpp adcP)) s'
  | .fault r => .fault r
  | .refused r => .refused r

/-- MEASURE (R68): RDRAW; if its status is `OK`, CMPT with the temperature count, then CMPP with the pressure count of the
same RDRAW; if it is not, nothing more (DEDUCED, log entry 27). -/
def runMeasure (s : State) : Host.Outcome State Fault Refusal :=
  match presentAndRun (encode .rdraw) s with
  | .next s' =>
    match s'.rsp with
    | some r => if r.status = .ok then measureCompensate (countOf r.d0) (countOf r.d1) s' else .next s'
    | none => .next s'
  | .fault r => .fault r
  | .refused r => .refused r

/-- The operand a host presents for its own pin index (R64): an index that `ARG` can hold as it is, and `0xFFFFF`, the
spec's example, for a negative or wider one, which must not be truncated (log entry 29). -/
def hostPin (index : Int) : Nat := if 0 ≤ index ∧ index ≤ 0xFFFFF then index.toNat else 0xFFFFF

end Sys2Proof.Machine
end

