-- ==== Sys2Proof/Safety.lean ====
section
/-! DEFINITION. Safety.lean: what claims about runs are stated in: the invariants every step keeps, the transactions and
responses of a stretch of trace, and the run's fault record of spec/60_exceptions.md R169. -/
namespace Sys2Proof.Machine

/-! ### Parts of a trace -/

/-- A transaction on one of the two channels (R57). -/
def Event.isTransaction : Event → Bool
  | .command _ => false
  | .busRead _ _ _ => true
  | .memRead _ _ => true
  | .memWrite _ _ => true
  | .response _ => false

/-- A transaction on the MemoryRegisterChannel (R43). -/
def Event.onBank : Event → Bool
  | .command _ => false
  | .busRead _ _ _ => false
  | .memRead _ _ => true
  | .memWrite _ _ => true
  | .response _ => false

/-- A transaction on the RegisterChannel (R41). -/
def Event.onBus : Event → Bool
  | .command _ => false
  | .busRead _ _ _ => true
  | .memRead _ _ => false
  | .memWrite _ _ => false
  | .response _ => false

/-! ### The run's fault record -/

/-- The three statuses that are refusals by the spec and not documented error returns (R169, U1 to U3). -/
def Status.refusedBySpec : Status → Bool
  | .ok => false
  | .ioError => false
  | .invalidPin => false
  | .illegalCommand => true
  | .notCalibrated => true
  | .tFineUnset => true

/-- A response that a claim about a correct host program rules out. -/
def Event.isRunFault : Event → Bool
  | .command _ => false
  | .busRead _ _ _ => false
  | .memRead _ _ => false
  | .memWrite _ _ => false
  | .response r => r.status.refusedBySpec

/-- The sticky fault record of a run (R169), derived from the trace (DESIGN CHOICE, log entry 28): never cleared, because the
trace only grows. -/
def State.runFault (s : State) : Bool := s.trace.any Event.isRunFault

/-! ### Invariants -/

/-- The sequencer never runs ahead of calibration: a phase other than `UNSET` needs a CMPT that ended `OK`, which needs
`CAL_VALID = 1`, and nothing clears either (R23, R25); and a `T_FINE` that a CMPT wrote lies in the range of R105. -/
structure Block.Inv (b : Block) : Prop where
  calibrated : b.tseq ≠ .unset → b.calValid = true
  tFineLow : b.tseq ≠ .unset → -1179648 ≤ b.tFine.toInt
  tFineHigh : b.tseq ≠ .unset → b.tFine.toInt ≤ 1179646

/-- A response with a non-`OK` status carries `d0 = d1 = 0` (R69, R160). -/
abbrev Response.Inv (r : Response) : Prop := r.status ≠ .ok → r.d0 = 0#32 ∧ r.d1 = 0#32

/-- The byte spaces are in canonical form. -/
abbrev Env.Inv (e : Env) : Prop := e.sensorMem.wf ∧ e.bankMem.wf

/-- The invariant of the machine. -/
structure State.Inv (s : State) : Prop where
  cfg : s.cfg.Ok
  block : s.block.Inv
  env : s.env.Inv
  rsp : ∀ r, s.rsp = some r → r.Inv

/-! ### What commands leave alone -/

/-- What a sensor command leaves alone: the configuration, what the host is going to present, and the whole bank end of
the environment (R2). -/
structure SensorFrame (s t : State) : Prop where
  cfg : t.cfg = s.cfg
  hostCommands : t.hostCommands = s.hostCommands
  sensor : t.env.sensor = s.env.sensor
  sensorMem : t.env.sensorMem = s.env.sensorMem
  bank : t.env.bank = s.env.bank
  bankMem : t.env.bankMem = s.env.bankMem
  memScript : t.env.memScript = s.env.memScript
  others : t.env.others = s.env.others

/-- What a GPIO command leaves alone: the configuration, every state element of the block (R29), what the host is going to
present, and the whole sensor end of the environment (R2). -/
structure GpioFrame (s t : State) : Prop where
  cfg : t.cfg = s.cfg
  block : t.block = s.block
  hostCommands : t.hostCommands = s.hostCommands
  sensor : t.env.sensor = s.env.sensor
  sensorMem : t.env.sensorMem = s.env.sensorMem
  busScript : t.env.busScript = s.env.busScript
  bank : t.env.bank = s.env.bank
  oracleKeepsNothing : s.env.bank = .oracle → t.env.bankMem = s.env.bankMem

/-- The premises under which GPIO commands are read as sequential code on FaithfulBank (R55, R56): the parameters meet
their constraints, the bank's bytes are in canonical form, and no other agent writes it. -/
structure FaithfulExclusive (s : State) : Prop where
  cfg : s.cfg.Ok
  faithful : s.env.bank = .faithful
  wf : s.env.bankMem.wf
  exclusive : s.env.Exclusive

/-- Every byte of the bank outside `[a, a+4)` reads as before. -/
def bankSameOutside (s t : State) (a : Nat) : Prop :=
  ∀ x, ¬(a ≤ x ∧ x < a + 4) → t.env.bankMem.get x = s.env.bankMem.get x

/-- A transaction the block can issue, by the list of R47 and the ranges of R50. -/
def Event.withinReach (c : Config) : Event → Prop
  | .command _ => False
  | .busRead addr n _ => (addr = c.calibBase ∧ n = calibLen) ∨ (addr = c.dataBase ∧ n = rawLen)
  | .memRead off _ =>
    off.toNat % 4 = 0 ∧
      ((∃ w < fselWords, off.toNat = c.fselOff.toNat + 4 * w) ∨ ∃ w < levelWords, off.toNat = c.levOff.toNat + 4 * w)
  | .memWrite off _ =>
    off.toNat % 4 = 0 ∧
      ((∃ w < fselWords, off.toNat = c.fselOff.toNat + 4 * w) ∨
        (∃ w < levelWords, off.toNat = c.setOff.toNat + 4 * w) ∨ ∃ w < levelWords, off.toNat = c.clrOff.toNat + 4 * w)
  | .response _ => False

/-! ### The formulas in exact integer arithmetic -/

/-- The two's-complement reading of an exact integer reduced modulo 2^32 (R10, R100). -/
def wrapS (x : Int) : Int := Int.bmod x (2 ^ 32)

/-- The unsigned reading of an exact integer reduced modulo 2^32 (R10, R100). -/
def wrapU (x : Int) : Int := x % 2 ^ 32

/-- `t_fine` by the steps of R103 on exact integers, each step's result reduced; `/` by a power of 2 rounds toward minus
infinity. -/
def exactTFine (t1 t2 t3 adcT : Int) : Int :=
  let a := wrapS (adcT / 2 ^ 3 - wrapS (t1 * 2))
  let var1 := wrapS (a * t2) / 2 ^ 11
  let d := wrapS (adcT / 2 ^ 4 - t1)
  let sq12 := wrapS (d * d) / 2 ^ 12
  let var2 := wrapS (sq12 * t3) / 2 ^ 14
  wrapS (var1 + var2)

/-- `T` from `t_fine` (R103). -/
def exactTemp (tFine : Int) : Int := wrapS (wrapS (tFine * 5) + 128) / 2 ^ 8

/-- The constants of the pressure formula as signed integers. -/
structure ExactParams where
  p1 : Int
  p2 : Int
  p3 : Int
  p4 : Int
  p5 : Int
  p6 : Int
  p7 : Int
  p8 : Int
  p9 : Int

/-- `S` of each widened constant. -/
def PressParams.exact (c : PressParams) : ExactParams where
  p1 := c.p1.toInt
  p2 := c.p2.toInt
  p3 := c.p3.toInt
  p4 := c.p4.toInt
  p5 := c.p5.toInt
  p6 := c.p6.toInt
  p7 := c.p7.toInt
  p8 := c.p8.toInt
  p9 := c.p9.toInt

/-- The steps of R106 up to `v2c` and `v1c`, on exact integers: the pair (`v2c`, `v1c`). -/
def exactBeforeDivision (c : ExactParams) (tFine : Int) : Int × Int :=
  let v1a := wrapS (tFine / 2 - 64000)
  let q := v1a / 2 ^ 2
  let qq := wrapS (q * q)
  let v2a := wrapS (qq / 2 ^ 11 * c.p6)
  let v2b := wrapS (v2a + wrapS (wrapS (v1a * c.p5) * 2))
  let v2c := wrapS (v2b / 2 ^ 2 + wrapS (c.p4 * 2 ^ 16))
  let x := wrapS (c.p3 * (qq / 2 ^ 13)) / 2 ^ 3
  let y := wrapS (c.p2 * v1a) / 2
  let v1b := wrapS (x + y) / 2 ^ 18
  let v1c := wrapS (wrapS (32768 + v1b) * c.p1) / 2 ^ 15
  (v2c, v1c)

/-- The pressure by the steps of R106 on exact integers, unsigned. -/
def exactPress (c : ExactParams) (tFine adcP : Int) : Int :=
  let v2c := (exactBeforeDivision c tFine).1
  let v1c := (exactBeforeDivision c tFine).2
  let p0 := wrapU (wrapU (1048576 - adcP) - v2c / 2 ^ 12)
  let p1 := wrapU (p0 * 3125)
  let dvs := wrapU v1c
  let p2 := if p1 < 2 ^ 31 then 2 * p1 / dvs else wrapU (p1 / dvs * 2)
  let r := p2 / 2 ^ 3
  let rr := wrapU (r * r)
  let w1 := wrapS (c.p9 * (rr / 2 ^ 13)) / 2 ^ 12
  let w2 := wrapS (p2 / 2 ^ 2 * c.p8) / 2 ^ 13
  let adj := wrapS (wrapS (w1 + w2) + c.p7) / 2 ^ 4
  if v1c = 0 then 0 else wrapU (p2 + adj)

/-! ### States that a host cannot tell apart -/

/-- Two blocks agree but for the contents that the spec gives no value: `CAL` while `CAL_VALID = 0`, `T_FINE` while
`TSEQ = UNSET` (R35, U4). -/
structure Block.Agree (b b' : Block) : Prop where
  calValid : b.calValid = b'.calValid
  tseq : b.tseq = b'.tseq
  cal : b.calValid = true → b.cal = b'.cal
  tFine : b.tseq ≠ .unset → b.tFine = b'.tFine

/-- Two states that differ at most in those contents. -/
structure State.Agree (s s' : State) : Prop where
  cfg : s.cfg = s'.cfg
  block : s.block.Agree s'.block
  rsp : s.rsp = s'.rsp
  hostCommands : s.hostCommands = s'.hostCommands
  env : s.env = s'.env
  trace : s.trace = s'.trace

end Sys2Proof.Machine
end

