-- ==== Sys2Proof/Certificates/Slice0/Obligations.lean ====
section
/-! DEFINITION. Obligations.lean: the statements about the model, in the order of OBLIGATIONS.json. Each docstring names the
rule of spec/ that the statement rests on. `s.env.busRead a n = some (o, e)` says that the environment answers
`BusRead(a, n)` with the outcome `o`; it is a condition on the state alone. -/
open Sys2Proof Sys2Proof.Machine

/-! ### Reset and the step -/

/-- R191: reset empties the calibration set and the sequencer, gives `CAL` and `T_FINE` no value the host can see, and
leaves the block ready for a command; R192: it issues no transaction. The other clauses are the model's choices: that the
configuration is the default one is log entry 2 (R191 says only that it keeps the values it was built with), that no word is
presented yet is log entry 7, that no response is held is log entry 16, and that the events are held in the state, so that
none is held yet, is log entry 17. -/
def Obligations.ResetLeavesBlockEmptyAndReady : Prop :=
  State.reset.block.calValid = false ∧ State.reset.block.tseq = .unset ∧
    State.reset.block.observe = ⟨none, false, none, .unset⟩ ∧ State.reset.cfg = Config.default ∧
    State.reset.hostCommands = [] ∧ State.reset.rsp = none ∧ State.reset.trace = [] ∧
    ∀ w i, decode w = .legal i → step (State.reset.present w) = exec i (State.reset.log (.command w))

/-- With no command presented a step changes nothing. The step itself is the model's choice (log entry 10); that the block
does not move is R172: "its state changes only as the effect of a command". -/
def Obligations.IdleBlockDoesNotMove : Prop := ∀ s : State, s.hostCommands = [] → step s = .next s

/-- A step takes the word the host presents, records it, and runs the instruction it decodes to (R70, R57). The list of words
and the recorded trace are the model's form of the host and of R57 (log entries 7 and 17). -/
def Obligations.StepRunsTheDecodedCommand : Prop :=
  ∀ (s : State) (w : Word) (rest : List Word) (i : Instr), s.hostCommands = w :: rest → decode w = .legal i →
    step s = exec i { s with hostCommands := rest, trace := s.trace ++ [.command w] }

/-- R65: a word that matches no row of the opcode table ends `IllegalCommand`, with no transaction and no state change;
which words these are, and that no encoding but the table's is accepted. -/
def Obligations.WordsOutsideTheTableAreIllegal : Prop :=
  (∀ (s : State) (w : Word) (rest : List Word), s.hostCommands = w :: rest → (∀ o : Op, o.selects w = false) →
    step s = .next
      { s with
        hostCommands := rest
        rsp := some ⟨.illegalCommand, 0#32, 0#32⟩
        trace := s.trace ++ [.command w, .response ⟨.illegalCommand, 0#32, 0#32⟩] }) ∧
  (∀ w : Word, (∀ o : Op, opcField w ≠ o.code) → ∀ o : Op, o.selects w = false) ∧
  (∀ w : Word, rsvField w ≠ 0#3 → ∀ o : Op, o.selects w = false) ∧
  (∀ w : Word, opcField w = 0x01#8 ∨ opcField w = 0x02#8 → vField w = 1#1 ∨ argField w ≠ 0#20 →
    ∀ o : Op, o.selects w = false) ∧
  (∀ w : Word, opcField w = 0x03#8 ∨ opcField w = 0x04#8 ∨ opcField w = 0x11#8 ∨ opcField w = 0x12#8 →
    vField w = 1#1 → ∀ o : Op, o.selects w = false) ∧
  (∀ o : Op, o.code ∈ [0x01#8, 0x02#8, 0x03#8, 0x04#8, 0x10#8, 0x11#8, 0x12#8, 0x13#8]) ∧
  (∀ o : Op, o.selects 0x00000000#32 = false) ∧ (∀ o : Op, o.selects 0xFFFFFFFF#32 = false)

/-- R63: a word selects the command of a row iff `(w & mask) == match`, with the numbers of the table, and no word matches
two rows. -/
def Obligations.MatchMaskTableSelectsTheCommand : Prop :=
  (Op.all.map fun o => (o.code, o.pattern, o.variant.mask)) =
    [(0x01#8, 0x01000000#32, 0xFFFFFFFF#32), (0x02#8, 0x02000000#32, 0xFFFFFFFF#32),
      (0x03#8, 0x03000000#32, 0xFFF00000#32), (0x04#8, 0x04000000#32, 0xFFF00000#32),
      (0x10#8, 0x10000000#32, 0xFFE00000#32), (0x11#8, 0x11000000#32, 0xFFF00000#32),
      (0x12#8, 0x12000000#32, 0xFFF00000#32), (0x13#8, 0x13000000#32, 0xFFE00000#32)] ∧
  (∀ (w : Word) (o : Op), (∃ i, decode w = .legal i ∧ i.op = o) ↔ w &&& o.variant.mask = o.pattern) ∧
  (∀ (w : Word) (o o' : Op), w &&& o.variant.mask = o.pattern → w &&& o'.variant.mask = o'.pattern → o = o')

/-- Decoding the word of a well-formed instruction gives it back, with every operand at every value the encoding admits
(R61, R63, R64). -/
def Obligations.DecodeOfEncodeIsTheInstruction : Prop :=
  ∀ i : Instr, i.wellFormed = true → decode (encode i) = .legal i

/-- A word that decodes legally is the word of its instruction, and the instruction is well formed (R61, R63, R64). -/
def Obligations.EncodeOfDecodeIsTheWord : Prop :=
  ∀ (w : Word) (i : Instr), decode w = .legal i → i.wellFormed = true ∧ encode i = w

/-- The words of spec/95_test_vectors.md 2.1 decode as that table says, one of each command. -/
def Obligations.VectorWordsDecode : Prop :=
  decode 0x01000000#32 = .legal .rdcal ∧ decode 0x02000000#32 = .legal .rdraw ∧
    decode 0x0307EED0#32 = .legal (.cmpt 519888#20) ∧ decode 0x040655AC#32 = .legal (.cmpp 415148#20) ∧
    decode 0x10100011#32 = .legal (.gset 17 true) ∧ decode 0x11000035#32 = .legal (.gget 53) ∧
    decode 0x12000009#32 = .legal (.gdin 9) ∧ decode 0x13100035#32 = .legal (.gdout 53 true) ∧
    decode 0x04F00000#32 = .illegal .reservedBits ∧ decode 0x14000000#32 = .illegal .unassignedOpcode ∧
    decode 0x11100005#32 = .illegal .operandBits

/-- The assembler's words of R67 are the encoder's, for every operand in range, and operands out of range are rejected. -/
def Obligations.AssemblerGivesTheEncodedWord : Prop :=
  assembleOp "RDCAL".toList [] = some (encode .rdcal) ∧ assembleOp "RDRAW".toList [] = some (encode .rdraw) ∧
  (∀ x ≤ 0xFFFFF,
    assembleOp "CMPT".toList [x] = some (encode (.cmpt (BitVec.ofNat 20 x))) ∧
    assembleOp "CMPP".toList [x] = some (encode (.cmpp (BitVec.ofNat 20 x))) ∧
    assembleOp "GGET".toList [x] = some (encode (.gget x)) ∧
    assembleOp "GDIN".toList [x] = some (encode (.gdin x)) ∧
    ∀ v : Bool,
      assembleOp "GSET".toList [x, v.toNat] = some (encode (.gset x v)) ∧
      assembleOp "GDOUT".toList [x, v.toNat] = some (encode (.gdout x v))) ∧
  (∀ x > 0xFFFFF, ∀ m, assembleOp m [x] = none ∧ ∀ v, assembleOp m [x, v] = none) ∧
  (∀ v > 1, ∀ m x, assembleOp m [x, v] = none)

/-! ### Arithmetic and operands -/

/-- R10: what each 32-bit primitive computes, against exact integers. -/
def Obligations.ArithmeticPrimitivesAreExact : Prop :=
  (∀ a b : Word, (add32 a b).toNat = (a.toNat + b.toNat) % 2 ^ 32) ∧
  (∀ a b : Word, ((sub32 a b).toNat : Int) = ((a.toNat : Int) - b.toNat) % 2 ^ 32) ∧
  (∀ a b : Word, (mul32 a b).toNat = a.toNat * b.toNat % 2 ^ 32 ∧
    ((mul32 a b).toNat : Int) = a.toInt * b.toInt % 2 ^ 32) ∧
  (∀ (a : Word) (n : Nat), n ≤ 31 → (asr32 a n).toInt = a.toInt / 2 ^ n) ∧
  (∀ (a : Word) (n : Nat), n ≤ 31 → (lsr32 a n).toNat = a.toNat / 2 ^ n) ∧
  (∀ (a : Word) (n : Nat), n ≤ 31 → (shl32 a n).toNat = a.toNat * 2 ^ n % 2 ^ 32) ∧
  (∀ a b : Word, b.toNat ≠ 0 → (udiv32 a b).toNat = a.toNat / b.toNat) ∧
  (∀ a b : Word, ult32 a b = true ↔ a.toNat < b.toNat)

/-- R102: `dig_T1` and `dig_P1` enter unsigned, the other ten constants signed, a raw count unsigned, and no value changes;
CMPT and CMPP widen their operands so. -/
def Obligations.WideningKeepsEveryValue : Prop :=
  (∀ h : Half, (zextHalf h).toInt = h.toNat) ∧ (∀ h : Half, (sextHalf h).toInt = h.toInt) ∧
  (∀ c : Count, (zextCount c).toInt = c.toNat) ∧
  (∀ (cal : CalSet) (raw : Count), tempOf cal raw =
    tempComp (zextHalf (cal.reg 0)) (sextHalf (cal.reg 1)) (sextHalf (cal.reg 2)) (zextCount raw)) ∧
  (∀ (cal : CalSet) (tFine : Word) (raw : Count), pressureOf cal tFine raw =
    pressComp ⟨zextHalf (cal.reg 3), sextHalf (cal.reg 4), sextHalf (cal.reg 5), sextHalf (cal.reg 6),
      sextHalf (cal.reg 7), sextHalf (cal.reg 8), sextHalf (cal.reg 9), sextHalf (cal.reg 10), sextHalf (cal.reg 11)⟩
      tFine (zextCount raw))

/-! ### The sensor reads -/

/-- R80: constant k is little-endian in bytes 2k and 2k+1 of the block; constants 0 and 3 are unsigned in 0..65535, the
other ten two's complement in -32768..32767, a reading that takes effect when the constant is widened (R102). -/
def Obligations.ParseCalIsLittleEndian : Prop :=
  ∀ (b : List Byte) (_ : b.length = 24) (k : Fin 12),
    ((parseCal b).reg k).toNat = (b[2 * k.val]).toNat + 256 * (b[2 * k.val + 1]).toNat ∧
    (zextHalf ((parseCal b).reg k)).toInt = ((b[2 * k.val]).toNat + 256 * (b[2 * k.val + 1]).toNat : Int) ∧
    (sextHalf ((parseCal b).reg k)).toInt =
      (if (b[2 * k.val + 1]).toNat < 128 then ((b[2 * k.val]).toNat + 256 * (b[2 * k.val + 1]).toNat : Int)
      else ((b[2 * k.val]).toNat + 256 * (b[2 * k.val + 1]).toNat : Int) - 65536)

/-- R84: the counts are most significant byte first, pressure bytes before temperature bytes, and the low four bits of the
two XLSB bytes are ignored. -/
def Obligations.AsmRawTakesTheTopTwentyBits : Prop :=
  ∀ (b : List Byte) (_ : b.length = 6),
    (asmRaw b).adcPressure.toNat = (b[0]).toNat * 4096 + (b[1]).toNat * 16 + (b[2]).toNat / 16 ∧
    (asmRaw b).adcTemperature.toNat = (b[3]).toNat * 4096 + (b[4]).toNat * 16 + (b[5]).toNat / 16

/-- R81: an RDCAL whose one transaction yields 24 bytes ends `OK`, with all twelve constants and `CAL_VALID` written and
nothing else of the block. -/
def Obligations.RdcalLoadsAllConstants : Prop :=
  ∀ (s : State) (b : List Byte) (e : Env), s.env.busRead s.cfg.calibBase 24 = some (.ok b, e) →
    ∃ t, exec .rdcal s = .next t ∧ t.block = { s.block with cal := parseCal b, calValid := true } ∧
      t.rsp = some ⟨.ok, 0#32, 0#32⟩ ∧
      t.trace = s.trace ++ [.busRead s.cfg.calibBase 24 (.ok b), .response ⟨.ok, 0#32, 0#32⟩] ∧
      t.env = e ∧ SensorFrame s t ∧ ∀ a, t.env.bankMem.get a = s.env.bankMem.get a

/-- R82: an RDCAL that ends `IoError` leaves `CAL` and `CAL_VALID` exactly as they were (so earlier constants stay valid,
decision D18), and it is not retried. -/
def Obligations.FailedRdcalLeavesNoTrace : Prop :=
  ∀ (s : State) (o : BusOutcome) (e : Env), s.env.busRead s.cfg.calibBase 24 = some (o, e) → (∀ b, o ≠ .ok b) →
    ∃ t, exec .rdcal s = .next t ∧ t.block = s.block ∧ t.rsp = some ⟨.ioError, 0#32, 0#32⟩ ∧
      t.trace = s.trace ++ [.busRead s.cfg.calibBase 24 o, .response ⟨.ioError, 0#32, 0#32⟩] ∧
      t.env = e ∧ SensorFrame s t

/-- R83: RDCAL is accepted at any time; a second one that reads the same 24 bytes leaves the block as the first one did;
each overwrites all twelve constants; and RDCAL never writes `T_FINE` or `TSEQ`, even though a `T_FINE` of earlier
constants may no longer fit (decision D18). -/
def Obligations.RepeatedRdcalIsIdempotent : Prop :=
  (∀ (s t u : State) (b : List Byte) (e e' : Env), s.env.busRead s.cfg.calibBase 24 = some (.ok b, e) →
    exec .rdcal s = .next t → t.env.busRead t.cfg.calibBase 24 = some (.ok b, e') → exec .rdcal t = .next u →
    u.block = t.block ∧ t.rsp = u.rsp) ∧
  (∀ (s : State) (b : List Byte) (e : Env), s.env.busRead s.cfg.calibBase 24 = some (.ok b, e) →
    ∃ t, exec .rdcal s = .next t ∧ t.block.cal = parseCal b) ∧
  (∀ s t : State, exec .rdcal s = .next t → t.block.tFine = s.block.tFine ∧ t.block.tseq = s.block.tseq)

/-- R85: an RDRAW whose one transaction yields 6 bytes ends `OK` with the temperature count in `d0` and the pressure count
in `d1`; it needs no calibration. -/
def Obligations.RdrawReturnsTheSample : Prop :=
  ∀ (s : State) (b : List Byte) (e : Env), s.env.busRead s.cfg.dataBase 6 = some (.ok b, e) →
    ∃ t d0 d1, exec .rdraw s = .next t ∧ d0.toNat = (asmRaw b).adcTemperature.toNat ∧
      d1.toNat = (asmRaw b).adcPressure.toNat ∧ t.rsp = some ⟨.ok, d0, d1⟩ ∧ t.block = s.block ∧
      t.trace = s.trace ++ [.busRead s.cfg.dataBase 6 (.ok b), .response ⟨.ok, d0, d1⟩] ∧
      t.env = e ∧ SensorFrame s t ∧ ∀ a, t.env.bankMem.get a = s.env.bankMem.get a

/-- R86: RDRAW changes no state of the block, on success or failure; a failed one yields no sample. -/
def Obligations.RdrawChangesNoBlockState : Prop :=
  (∀ s t : State, exec .rdraw s = .next t → t.block = s.block) ∧
  (∀ (s : State) (o : BusOutcome) (e : Env), s.env.busRead s.cfg.dataBase 6 = some (o, e) → (∀ b, o ≠ .ok b) →
    ∃ t, exec .rdraw s = .next t ∧ t.rsp = some ⟨.ioError, 0#32, 0#32⟩ ∧ t.block = s.block ∧
      t.trace = s.trace ++ [.busRead s.cfg.dataBase 6 o, .response ⟨.ioError, 0#32, 0#32⟩] ∧
      t.env = e ∧ SensorFrame s t)

/-- A register channel that never answers leaves the command, and the block, stuck (R202, U10): RDCAL gets stuck exactly
there, RDRAW gets stuck exactly there, and in every other case each of them answers a next state. The script entry that says
so is the model's way to say it (log entry 7), and the fault is the model's way to be stuck (log entry 24). -/
def Obligations.SilentChannelLeavesTheCommandStuck : Prop :=
  ∀ s : State,
    ((∃ rest, s.env.busScript = .silence :: rest) ↔ exec .rdcal s = .fault .channelNeverAnswers) ∧
    ((∃ rest, s.env.busScript = .silence :: rest) ↔ exec .rdraw s = .fault .channelNeverAnswers) ∧
    ((¬∃ rest, s.env.busScript = .silence :: rest) →
      (∃ t, exec .rdcal s = .next t) ∧ ∃ t, exec .rdraw s = .next t)

/-- `BusRead(addr, n)` has three outcomes (R41): exactly n bytes, k < n bytes, or a failure; a scripted answer is given as
scripted; an unscripted one of StaticSensor is its n consecutive registers (R42, R56). The script and the sensor kinds are
the model's form of the environment (log entry 7). -/
def Obligations.BusReadHasThreeOutcomes : Prop :=
  (∀ (e e' : Env) (addr : Byte) (n : Nat) (o : BusOutcome), e.busRead addr n = some (o, e') →
    (∃ b, o = .ok b ∧ b.length = n) ∨ (∃ k, o = .short k ∧ k < n) ∨ o = .fail) ∧
  (∀ (e : Env) (addr : Byte) (n : Nat) (b : List Byte) (rest : List ScriptEntry),
    e.busScript = .answer (.delivered b) :: rest →
    (b.length = n → e.busRead addr n = some (.ok b, { e with busScript := rest })) ∧
    (b.length < n → e.busRead addr n = some (.short b.length, { e with busScript := rest }))) ∧
  (∀ (e : Env) (addr : Byte) (n : Nat) (rest : List ScriptEntry), e.busScript = .answer .failed :: rest →
    e.busRead addr n = some (.fail, { e with busScript := rest })) ∧
  (∀ (e : Env) (addr : Byte) (n : Nat), e.busScript = [] → e.sensor = .static →
    ∃ b, e.busRead addr n = some (.ok b, e) ∧ b.length = n ∧ ∀ i < n, b[i]? = some (e.sensorMem.get (addr.toNat + i)))

/-! ### Compensation -/

/-- R103: TempComp on every operand is the step list on exact integers, each step's result reduced to 32 bits. The rule
marks the text of the steps as from general knowledge. -/
def Obligations.TemperatureFollowsItsSteps : Prop :=
  ∀ t1 t2 t3 adcT : Word,
    (tempComp t1 t2 t3 adcT).tFine.toInt = exactTFine t1.toInt t2.toInt t3.toInt adcT.toInt ∧
    (tempComp t1 t2 t3 adcT).temp.toInt = exactTemp (exactTFine t1.toInt t2.toInt t3.toInt adcT.toInt)

/-- The range of the temperature results, which R105 derives: no step after the two shifts wraps, `T_FINE` lies in
-1179648..1179646 and `T` in -23040..23040, and `T` is `(5 * t_fine + 128) / 256` rounded down. -/
def Obligations.TemperatureResultsStayInRange : Prop :=
  ∀ t1 t2 t3 adcT : Word,
    -1048576 ≤ (tempVar1 t1 t2 adcT).toInt ∧ (tempVar1 t1 t2 adcT).toInt ≤ 1048575 ∧
    -131072 ≤ (tempVar2 t1 t3 adcT).toInt ∧ (tempVar2 t1 t3 adcT).toInt ≤ 131071 ∧
    (tempComp t1 t2 t3 adcT).tFine.toInt = (tempVar1 t1 t2 adcT).toInt + (tempVar2 t1 t3 adcT).toInt ∧
    -1179648 ≤ (tempComp t1 t2 t3 adcT).tFine.toInt ∧ (tempComp t1 t2 t3 adcT).tFine.toInt ≤ 1179646 ∧
    (tempComp t1 t2 t3 adcT).temp.toInt = ((tempComp t1 t2 t3 adcT).tFine.toInt * 5 + 128) / 256 ∧
    -23040 ≤ (tempComp t1 t2 t3 adcT).temp.toInt ∧ (tempComp t1 t2 t3 adcT).temp.toInt ≤ 23040

/-- R104: a CMPT on a calibrated block ends `OK`, writes `T_FINE` and moves `TSEQ` to `FRESH`; no transaction, nothing
else written. -/
def Obligations.CmptStoresTFineAndAnswersT : Prop :=
  ∀ (s : State) (raw : Count), s.block.calValid = true →
    exec (.cmpt raw) s = .next
      { s with
        block := { s.block with tFine := (tempOf s.block.cal raw).tFine, tseq := .fresh }
        rsp := some ⟨.ok, (tempOf s.block.cal raw).temp, 0#32⟩
        trace := s.trace ++ [.response ⟨.ok, (tempOf s.block.cal raw).temp, 0#32⟩] }

/-- R165: CMPT and CMPP on a block that is not calibrated compute nothing, change nothing and end `NotCalibrated`. -/
def Obligations.CompensationNeedsCalibration : Prop :=
  ∀ (s : State) (raw : Count) (i : Instr), i = .cmpt raw ∨ i = .cmpp raw → s.block.calValid = false →
    exec i s = .next
      { s with
        rsp := some ⟨.notCalibrated, 0#32, 0#32⟩
        trace := s.trace ++ [.response ⟨.notCalibrated, 0#32, 0#32⟩] }

/-- R166: a CMPP on a calibrated block in phase `UNSET` computes nothing, changes nothing and ends `TFineUnset`; in phase
`CONSUMED` it is no error. -/
def Obligations.CmppNeedsATFine : Prop :=
  (∀ (s : State) (raw : Count), s.block.calValid = true → s.block.tseq = .unset →
    exec (.cmpp raw) s = .next
      { s with
        rsp := some ⟨.tFineUnset, 0#32, 0#32⟩
        trace := s.trace ++ [.response ⟨.tFineUnset, 0#32, 0#32⟩] }) ∧
  (∀ (s : State) (raw : Count), s.block.calValid = true → s.block.tseq = .consumed →
    ∃ t r, exec (.cmpp raw) s = .next t ∧ t.rsp = some r ∧ r.status = .ok)

/-- R109: a CMPP on a calibrated block in phase `FRESH` or `CONSUMED` ends `OK` with the pressure and the stale bit; it
writes `TSEQ` only; no transaction. -/
def Obligations.CmppAnswersPressureAndConsumes : Prop :=
  ∀ (s : State) (raw : Count), s.block.calValid = true → s.block.tseq ≠ .unset →
    ∃ d1 : Word, d1 = (if s.block.tseq = .consumed then 1#32 else 0#32) ∧
      exec (.cmpp raw) s = .next
        { s with
          block := { s.block with tseq := .consumed }
          rsp := some ⟨.ok, pressureOf s.block.cal s.block.tFine raw, d1⟩
          trace := s.trace ++ [.response ⟨.ok, pressureOf s.block.cal s.block.tFine raw, d1⟩] }

/-- R107: when `v1c` is zero PressComp returns 0 and CMPP ends `OK` with `d0 = 0` and the same state effects as for any
other result; a `v1c` that is negative as an S32 divides as a large unsigned number, between 2^31 and 2^32 - 1. -/
def Obligations.ZeroDivisorAnswersZero : Prop :=
  (∀ (c : PressParams) (tFine adcP : Word), pressV1c c tFine = 0#32 → pressComp c tFine adcP = 0#32) ∧
  (∀ (s : State) (raw : Count), s.block.calValid = true → s.block.tseq ≠ .unset →
    pressV1c (pressParams s.block.cal) s.block.tFine = 0#32 →
    ∃ t d1, exec (.cmpp raw) s = .next t ∧ t.rsp = some ⟨.ok, 0#32, d1⟩ ∧
      t.block = { s.block with tseq := .consumed }) ∧
  (∀ (c : PressParams) (tFine adcP : Word), (pressV1c c tFine).toInt < 0 →
    2 ^ 31 ≤ (pressV1c c tFine).toNat ∧ (pressV1c c tFine).toNat ≤ 2 ^ 32 - 1 ∧
    pressComp c tFine adcP =
      pressAdjust c (pressDivide (pressDividend c tFine adcP) (pressV1c c tFine)))

/-- R108: below the threshold the dividend is doubled and then divided, at or above it divided and then doubled; the
doubling of the quotient wraps only for the divisor 1; below the threshold the two schemes differ by 1 exactly when
`(p1 mod dvs) * 2 >= dvs`. -/
def Obligations.DivisionBranchesAtTheThreshold : Prop :=
  ∀ p1 dvs : Word, dvs ≠ 0#32 →
    (p1.toNat < 2 ^ 31 → (pressDivide p1 dvs).toNat = 2 * p1.toNat / dvs.toNat) ∧
    (2 ^ 31 ≤ p1.toNat → (pressDivide p1 dvs).toNat = 2 * (p1.toNat / dvs.toNat) % 2 ^ 32) ∧
    (2 ^ 31 ≤ p1.toNat → 2 * (p1.toNat / dvs.toNat) ≥ 2 ^ 32 → dvs.toNat = 1) ∧
    (p1.toNat < 2 ^ 31 →
      2 * p1.toNat / dvs.toNat =
        2 * (p1.toNat / dvs.toNat) + (if p1.toNat % dvs.toNat * 2 ≥ dvs.toNat then 1 else 0))

/-- R106: PressComp on every operand is the step list on exact integers, each step's result reduced to 32 bits and read
signed or unsigned as R101 says. The rule marks the text of the steps as from general knowledge. -/
def Obligations.PressureFollowsItsSteps : Prop :=
  ∀ (c : PressParams) (tFine adcP : Word),
    ((pressComp c tFine adcP).toNat : Int) = exactPress c.exact tFine.toInt adcP.toInt

/-- R25: the encodings of the three phases, the phase at reset, and the complete transition table: what every command,
legal or not, does to `TSEQ`. -/
def Obligations.SequencerTransitions : Prop :=
  (Tseq.unset.code = 0b00#2 ∧ Tseq.fresh.code = 0b01#2 ∧ Tseq.consumed.code = 0b10#2 ∧ ∀ p : Tseq, p.code ≠ 0b11#2) ∧
  State.reset.block.tseq = .unset ∧
  ∀ (s t : State) (w : Word) (rest : List Word), s.hostCommands = w :: rest → step s = .next t →
    ∃ r, t.rsp = some r ∧
      (r.status ≠ .ok → t.block.tseq = s.block.tseq) ∧
      (∀ raw, decode w = .legal (.cmpt raw) → r.status = .ok → t.block.tseq = .fresh) ∧
      (∀ raw, decode w = .legal (.cmpp raw) →
        (s.block.calValid = true → s.block.tseq = .unset → r.status = .tFineUnset ∧ t.block.tseq = .unset) ∧
        (r.status = .ok →
          s.block.tseq ≠ .unset ∧ t.block.tseq = .consumed ∧ (r.d1 = 1#32 ↔ s.block.tseq = .consumed))) ∧
      ((∀ raw, decode w ≠ .legal (.cmpt raw)) → (∀ raw, decode w ≠ .legal (.cmpp raw)) →
        t.block.tseq = s.block.tseq)

/-- R22, R23: the only writer of `CAL` and `CAL_VALID` is a successful RDCAL, which writes all twelve registers and the
flag; nothing but reset clears the flag. -/
def Obligations.OnlySuccessfulRdcalWritesCal : Prop :=
  ∀ s t : State, step s = .next t →
    (t.block.cal = s.block.cal ∧ t.block.calValid = s.block.calValid) ∨
    ∃ w rest b r, s.hostCommands = w :: rest ∧ decode w = .legal .rdcal ∧
      t.trace = s.trace ++ [.command w, .busRead s.cfg.calibBase 24 (.ok b), .response r] ∧ r.status = .ok ∧
      t.block.cal = parseCal b ∧ t.block.calValid = true

/-- R24: `T_FINE` is written by every CMPT that ends `OK` and by nothing else. -/
def Obligations.OnlySuccessfulCmptWritesTFine : Prop :=
  ∀ s t : State, step s = .next t →
    (∀ w rest raw, s.hostCommands = w :: rest → decode w = .legal (.cmpt raw) → s.block.calValid = true →
      t.block.tFine = (tempOf s.block.cal raw).tFine ∧ ∃ r, t.rsp = some r ∧ r.status = .ok) ∧
    ((∀ w rest raw, s.hostCommands = w :: rest → decode w = .legal (.cmpt raw) → s.block.calValid = false) →
      t.block.tFine = s.block.tFine)

/-- R110: from a freshly reset block, `RDCAL; CMPT t; CMPP p` has one outcome for given bytes, t and p. -/
def Obligations.FreshBlockCompensatesReproducibly : Prop :=
  ∀ (s : State) (b : List Byte) (e : Env) (rawT rawP : Count), s.block = Block.reset →
    s.env.busRead s.cfg.calibBase 24 = some (.ok b, e) →
    ∃ t1 t2 t3, exec .rdcal s = .next t1 ∧ exec (.cmpt rawT) t1 = .next t2 ∧ exec (.cmpp rawP) t2 = .next t3 ∧
      t2.rsp = some ⟨.ok, (tempOf (parseCal b) rawT).temp, 0#32⟩ ∧
      t3.rsp = some ⟨.ok, pressureOf (parseCal b) (tempOf (parseCal b) rawT).tFine rawP, 0#32⟩ ∧
      t3.block = ⟨parseCal b, true, (tempOf (parseCal b) rawT).tFine, .consumed⟩

/-! ### GPIO -/

/-- R131, R132: the byte offsets of a valid pin's set, clear, level and function-select words, and the places of its bit
and its field; no offset wraps under the constraints of R8. -/
def Obligations.PinDecoderFormulas : Prop :=
  ∀ (c : Config) (pin : Nat), c.Ok → pin < 54 →
    (setAddr c pin).toNat = c.setOff.toNat + 4 * (pin / 32) ∧ (clrAddr c pin).toNat = c.clrOff.toNat + 4 * (pin / 32) ∧
    (levAddr c pin).toNat = c.levOff.toNat + 4 * (pin / 32) ∧ pin / 32 ≤ 1 ∧ levelBit pin = pin % 32 ∧
    (fselAddr c pin).toNat = c.fselOff.toNat + 4 * (pin / 10) ∧ pin / 10 ≤ 5 ∧ fselShift pin = pin % 10 * 3 ∧
    fselShift pin ≤ 27 ∧ ∀ word : Word, fselField word pin = word.extractLsb' (pin % 10 * 3) 3

/-- R133: the one-bit mask has exactly the bit `pin mod 32`, the field mask exactly the three bits of the field, the codes
are `0b000` and `0b001`, and the new word of a read-modify-write has the code in the field and the old word's bits
everywhere else, whatever code the field held. -/
def Obligations.MasksAndFieldInsertion : Prop :=
  (∀ (pin k : Nat), k < 32 → ((mask1 pin).getLsbD k = true ↔ k = pin % 32)) ∧
  (∀ (pin k : Nat), k < 32 → ((mask3 pin).getLsbD k = true ↔ pin % 10 * 3 ≤ k ∧ k < pin % 10 * 3 + 3)) ∧
  fselInput = 0b000#32 ∧ fselOutput = 0b001#32 ∧
  (∀ (old code : Word) (pin : Nat), code = fselInput ∨ code = fselOutput →
    fselInsert old pin code = (old &&& ~~~(mask3 pin)) ||| shl32 code (pin % 10 * 3) ∧
    fselField (fselInsert old pin code) pin = code.setWidth 3 ∧
    ∀ k < 32, ¬(pin % 10 * 3 ≤ k ∧ k < pin % 10 * 3 + 3) →
      (fselInsert old pin code).getLsbD k = old.getLsbD k)

/-- R130: every GPIO command tests its pin before anything else; an index of 54 or more, as wide as it may be, ends
`InvalidPin` with no transaction and changes nothing (that the check comes first is decision D19). An index too wide for a
command word can stand in an instruction of the model only (log entry 21). -/
def Obligations.InvalidPinStopsEveryGpioCommand : Prop :=
  ∀ (s : State) (pin : Nat) (value : Bool) (i : Instr),
    i = .gset pin value ∨ i = .gget pin ∨ i = .gdin pin ∨ i = .gdout pin value → 54 ≤ pin →
    exec i s = .next
      { s with
        rsp := some ⟨.invalidPin, 0#32, 0#32⟩
        trace := s.trace ++ [.response ⟨.invalidPin, 0#32, 0#32⟩] }

/-- Whatever index the host's software holds, negative or overflowed, the operand its adapter presents (R64; the choice of
`0xFFFFF` is log entry 29) never aliases a valid pin: an index in range is presented as it is, and any other ends the
command `InvalidPin` with no transaction, for each of the four GPIO commands. -/
def Obligations.OverflowedIndicesEndInvalidPin : Prop :=
  ∀ (s : State) (index : Int) (value : Bool) (i : Instr) (rest : List Word),
    i = .gset (hostPin index) value ∨ i = .gget (hostPin index) ∨ i = .gdin (hostPin index) ∨
      i = .gdout (hostPin index) value →
    s.hostCommands = encode i :: rest →
    (0 ≤ index ∧ index < 54 → (hostPin index : Int) = index) ∧
    (¬(0 ≤ index ∧ index < 54) → step s = .next
      { s with
        hostCommands := rest
        rsp := some ⟨.invalidPin, 0#32, 0#32⟩
        trace := s.trace ++ [.command (encode i), .response ⟨.invalidPin, 0#32, 0#32⟩] })

/-- R135: a GSET on a valid pin ends `OK` after exactly one `MemWrite` of the one-bit mask to the set word or the clear
word, and no read. -/
def Obligations.GsetWritesOneMask : Prop :=
  ∀ (s : State) (pin : Nat) (value : Bool), pin < 54 →
    ∃ t, exec (.gset pin value) s = .next t ∧ t.rsp = some ⟨.ok, 0#32, 0#32⟩ ∧
      t.trace = s.trace ++
        [.memWrite (if value then setAddr s.cfg pin else clrAddr s.cfg pin) (mask1 pin),
          .response ⟨.ok, 0#32, 0#32⟩] ∧
      GpioFrame s t

/-- R136: a GGET on a valid pin ends `OK` after exactly one `MemRead` of the level word, whatever word `x` the environment
answers; `d0` is the selected bit. Of an oracle bank the answer is the scripted one (the script is log entry 7); of
FaithfulBank it is the level word, held at the place log entry 26 gives it. -/
def Obligations.GgetReadsOneLevelBit : Prop :=
  ∀ (s : State) (pin : Nat), pin < 54 →
    ∃ t x, exec (.gget pin) s = .next t ∧
      t.rsp = some ⟨.ok, if x.getLsbD (pin % 32) then 1#32 else 0#32, 0#32⟩ ∧
      t.trace = s.trace ++
        [.memRead (levAddr s.cfg pin) x, .response ⟨.ok, if x.getLsbD (pin % 32) then 1#32 else 0#32, 0#32⟩] ∧
      GpioFrame s t ∧
      (∀ w rest, s.env.bank = .oracle → s.env.memScript = w :: rest → x = w) ∧
      (FaithfulExclusive s → x = s.env.bankMem.load32 (levelByte s.cfg (pin / 32)))

/-- R138: a GDIN on a valid pin ends `OK` after one `MemRead` and one `MemWrite` of the function-select word; the word
written has `000` in the pin's field and the bits read everywhere else. What is read of the two banks is as in GGET (log
entries 7 and 26). -/
def Obligations.GdinClearsTheField : Prop :=
  ∀ (s : State) (pin : Nat), pin < 54 →
    ∃ t old new, exec (.gdin pin) s = .next t ∧ t.rsp = some ⟨.ok, 0#32, 0#32⟩ ∧
      t.trace = s.trace ++
        [.memRead (fselAddr s.cfg pin) old, .memWrite (fselAddr s.cfg pin) new, .response ⟨.ok, 0#32, 0#32⟩] ∧
      GpioFrame s t ∧
      (∀ k < 32, new.getLsbD k =
        (if pin % 10 * 3 ≤ k ∧ k < pin % 10 * 3 + 3 then false else old.getLsbD k)) ∧
      (∀ w rest, s.env.bank = .oracle → s.env.memScript = w :: rest → old = w) ∧
      (FaithfulExclusive s → old = s.env.bankMem.load32 (fselByte s.cfg (pin / 10)))

/-- R139: a GDOUT on a valid pin ends `OK` after exactly three transactions in this order: `MemRead` and `MemWrite` of the
function-select word, which puts `001` in the pin's field, then the `MemWrite` of GSET. What is read of the two banks is as
in GGET (log entries 7 and 26). -/
def Obligations.GdoutSetsDirectionThenLevel : Prop :=
  ∀ (s : State) (pin : Nat) (value : Bool), pin < 54 →
    ∃ t old new, exec (.gdout pin value) s = .next t ∧ t.rsp = some ⟨.ok, 0#32, 0#32⟩ ∧
      t.trace = s.trace ++
        [.memRead (fselAddr s.cfg pin) old, .memWrite (fselAddr s.cfg pin) new,
          .memWrite (if value then setAddr s.cfg pin else clrAddr s.cfg pin) (mask1 pin),
          .response ⟨.ok, 0#32, 0#32⟩] ∧
      GpioFrame s t ∧
      (∀ k < 32, new.getLsbD k =
        (if pin % 10 * 3 ≤ k ∧ k < pin % 10 * 3 + 3 then decide (k = pin % 10 * 3) else old.getLsbD k)) ∧
      (∀ w rest, s.env.bank = .oracle → s.env.memScript = w :: rest → old = w) ∧
      (FaithfulExclusive s → old = s.env.bankMem.load32 (fselByte s.cfg (pin / 10)))

/-- What the four GPIO commands do to FaithfulBank under exclusive access (R48, R56): the words they store, at the
addresses they compute, and that every other byte of the bank reads as before; GGET stores nothing. Where the bank keeps its
words' bytes is log entry 26. -/
def Obligations.FaithfulBankByteFrames : Prop :=
  ∀ (s : State) (pin : Nat) (value : Bool), FaithfulExclusive s → pin < 54 →
    (∀ t, exec (.gset pin value) s = .next t →
      t.env.bankMem.load32 (levelByte s.cfg (pin / 32)) =
        (if value then s.env.bankMem.load32 (levelByte s.cfg (pin / 32)) ||| mask1 pin
        else s.env.bankMem.load32 (levelByte s.cfg (pin / 32)) &&& ~~~(mask1 pin)) ∧
      bankSameOutside s t (levelByte s.cfg (pin / 32))) ∧
    (∀ t, exec (.gget pin) s = .next t → ∀ a, t.env.bankMem.get a = s.env.bankMem.get a) ∧
    (∀ t, exec (.gdin pin) s = .next t →
      t.env.bankMem.load32 (fselByte s.cfg (pin / 10)) =
        fselInsert (s.env.bankMem.load32 (fselByte s.cfg (pin / 10))) pin fselInput ∧
      bankSameOutside s t (fselByte s.cfg (pin / 10))) ∧
    (∀ t, exec (.gdout pin value) s = .next t →
      t.env.bankMem.load32 (fselByte s.cfg (pin / 10)) =
        fselInsert (s.env.bankMem.load32 (fselByte s.cfg (pin / 10))) pin fselOutput ∧
      t.env.bankMem.load32 (levelByte s.cfg (pin / 32)) =
        (if value then s.env.bankMem.load32 (levelByte s.cfg (pin / 32)) ||| mask1 pin
        else s.env.bankMem.load32 (levelByte s.cfg (pin / 32)) &&& ~~~(mask1 pin)) ∧
      ∀ a, ¬(fselByte s.cfg (pin / 10) ≤ a ∧ a < fselByte s.cfg (pin / 10) + 4) →
        ¬(levelByte s.cfg (pin / 32) ≤ a ∧ a < levelByte s.cfg (pin / 32) + 4) →
        t.env.bankMem.get a = s.env.bankMem.get a)

/-- On FaithfulBank under exclusive access, GGET after GSET of the same pin returns the value set, for every pin in range:
the property of the block together with the bank that R142 derives. -/
def Obligations.LevelRoundTrip : Prop :=
  ∀ (s : State) (pin : Nat) (value : Bool), FaithfulExclusive s → pin < 54 →
    ∃ t u, exec (.gset pin value) s = .next t ∧ exec (.gget pin) t = .next u ∧
      u.rsp = some ⟨.ok, if value then 1#32 else 0#32, 0#32⟩

/-- On FaithfulBank under exclusive access a direction command on pin p leaves the field of every other pin, bits 31:30 of
every function-select word, and so the next word's first field at a word boundary, as they were: the property R141
derives. -/
def Obligations.DirectionFieldIsolation : Prop :=
  ∀ (s t : State) (p q : Nat) (value : Bool) (i : Instr), FaithfulExclusive s → p < 54 → q < 54 → q ≠ p →
    i = .gdin p ∨ i = .gdout p value → exec i s = .next t →
    fselField (t.env.bankMem.load32 (fselByte s.cfg (q / 10))) q =
      fselField (s.env.bankMem.load32 (fselByte s.cfg (q / 10))) q ∧
    ∀ w < 6, ∀ k, k = 30 ∨ k = 31 →
      (t.env.bankMem.load32 (fselByte s.cfg w)).getLsbD k = (s.env.bankMem.load32 (fselByte s.cfg w)).getLsbD k

/-- On FaithfulBank under exclusive access GDOUT then GDIN of the same pin leaves its field `0b000`, whatever it held
before (R141, the document's property E4); after the GDOUT it is `0b001`. -/
def Obligations.GdoutThenGdinLeavesAnInput : Prop :=
  ∀ (s : State) (pin : Nat) (value : Bool), FaithfulExclusive s → pin < 54 →
    ∃ t u, exec (.gdout pin value) s = .next t ∧ exec (.gdin pin) t = .next u ∧
      fselField (t.env.bankMem.load32 (fselByte s.cfg (pin / 10))) pin = 0b001#3 ∧
      fselField (u.env.bankMem.load32 (fselByte s.cfg (pin / 10))) pin = 0b000#3

/-- Without exclusive access the read-modify-write loses another agent's update (R53): a write to the same function-select
word that falls between the `MemRead` and the `MemWrite` of a GDIN leaves no bit behind. The list of such writes is the model's
form of the other agent (log entry 20). -/
def Obligations.ReadModifyWriteLosesTheOtherUpdate : Prop :=
  ∀ (s : State) (pin : Nat) (x : Word) (rest : List (List BankWrite)), s.cfg.Ok → s.env.bank = .faithful →
    s.env.bankMem.wf → pin < 54 → s.env.others = [] :: [⟨fselAddr s.cfg pin, x⟩] :: rest →
    ∃ t, exec (.gdin pin) s = .next t ∧
      t.env.bankMem.load32 (fselByte s.cfg (pin / 10)) =
        fselInsert (s.env.bankMem.load32 (fselByte s.cfg (pin / 10))) pin fselInput

/-! ### The whole machine -/

/-- R2: a command to one unit reads and writes no state of the other unit and issues no transaction on the other unit's
channel: a sensor command leaves the bank's end alone, and a GPIO command leaves the block's state (all of it the sensor
unit's) and the sensor's end alone and behaves the same whatever that state is. -/
def Obligations.UnitsShareNothing : Prop :=
  (∀ (s t : State) (i : Instr), (i = .rdcal ∨ i = .rdraw ∨ (∃ raw, i = .cmpt raw) ∨ ∃ raw, i = .cmpp raw) →
    exec i s = .next t →
    SensorFrame s t ∧ ∃ ev, t.trace = s.trace ++ ev ∧ ∀ e ∈ ev, e.onBank = false) ∧
  (∀ (s t : State) (i : Instr),
    ((∃ p v, i = .gset p v) ∨ (∃ p, i = .gget p) ∨ (∃ p, i = .gdin p) ∨ ∃ p v, i = .gdout p v) →
    exec i s = .next t →
    GpioFrame s t ∧ (∃ ev, t.trace = s.trace ++ ev ∧ ∀ e ∈ ev, e.onBus = false) ∧
      ∀ b : Block, exec i (s.setBlock b) = .next (t.setBlock b))

/-- Every command presented that does not get stuck ends with exactly one response, after at most three transactions
(R69, R202): that is all a step adds to the trace. A response with a non-`OK` status carries `d0 = d1 = 0`. -/
def Obligations.EveryCommandEndsWithOneResponse : Prop :=
  ∀ (s t : State) (w : Word) (rest : List Word), s.hostCommands = w :: rest → step s = .next t →
    t.hostCommands = rest ∧
    ∃ txs r, t.trace = s.trace ++ [.command w] ++ txs ++ [.response r] ∧ t.rsp = some r ∧ txs.length ≤ 3 ∧
      (∀ e ∈ txs, e.isTransaction = true) ∧ (r.status ≠ .ok → r.d0 = 0#32 ∧ r.d1 = 0#32)

/-- Which command can end with which status: the table that R176 derives, with the codes of R161. -/
def Obligations.StatusesOfEachCommand : Prop :=
  ([Status.ok, .ioError, .invalidPin, .illegalCommand, .notCalibrated, .tFineUnset].map Status.code =
    [0x00#8, 0x01#8, 0x02#8, 0x03#8, 0x04#8, 0x05#8]) ∧
  ∀ (s t : State) (i : Instr), exec i s = .next t → ∃ r, t.rsp = some r ∧
    match i with
    | .rdcal => r.status = .ok ∨ r.status = .ioError
    | .rdraw => r.status = .ok ∨ r.status = .ioError
    | .cmpt _ => r.status = .ok ∨ r.status = .notCalibrated
    | .cmpp _ => r.status = .ok ∨ r.status = .notCalibrated ∨ r.status = .tFineUnset
    | .gset _ _ => r.status = .ok ∨ r.status = .invalidPin
    | .gget _ => r.status = .ok ∨ r.status = .invalidPin
    | .gdin _ => r.status = .ok ∨ r.status = .invalidPin
    | .gdout _ _ => r.status = .ok ∨ r.status = .invalidPin

/-- R168: a command that ends with a non-`OK` status writes no state element of the block; its only transaction, if any, is
the one `BusRead` of a failing RDCAL or RDRAW. -/
def Obligations.ErrorsLeaveTheBlockUntouched : Prop :=
  ∀ (s t : State) (w : Word) (rest : List Word) (r : Response), s.hostCommands = w :: rest → step s = .next t →
    t.rsp = some r → r.status ≠ .ok →
    t.block = s.block ∧
    ((r.status ≠ .ioError ∧ t.trace = s.trace ++ [.command w, .response r]) ∨
      (r.status = .ioError ∧ (decode w = .legal .rdcal ∨ decode w = .legal .rdraw) ∧
        ∃ addr n o, (∀ b, o ≠ .ok b) ∧ t.trace = s.trace ++ [.command w, .busRead addr n o, .response r]))

/-- The transactions a command can issue are those of R47, at offsets that are multiples of 4 and lie in the blocks of R50
(R46). -/
def Obligations.TransactionsStayWithinReach : Prop :=
  ∀ (s t : State) (i : Instr), s.cfg.Ok → exec i s = .next t →
    ∃ txs r, t.trace = s.trace ++ txs ++ [.response r] ∧ ∀ e ∈ txs, e.withinReach s.cfg

/-- The configuration constants are never written (R28): "no command reads them as data or writes them". -/
def Obligations.ConfigurationIsNeverWritten : Prop := ∀ s t : State, step s = .next t → t.cfg = s.cfg

/-- MEASURE (R68): on a calibrated block, with an RDRAW that yields 6 bytes, it runs RDRAW, then CMPT with the temperature
count, then CMPP with the pressure count of that one sample, as the whole trace shows; it yields (T, p), leaves
`TSEQ = CONSUMED`, and changes nothing but what the three commands write. That it does nothing more after an RDRAW that fails
is the model's reading of a point R68 leaves open (log entry 27). -/
def Obligations.MeasureCompensatesOneSample : Prop :=
  (∀ (s : State) (b : List Byte) (e : Env) (tp : TempResult) (p : Word), s.block.calValid = true →
    s.env.busRead s.cfg.dataBase 6 = some (.ok b, e) →
    tp = tempOf s.block.cal (asmRaw b).adcTemperature → p = pressureOf s.block.cal tp.tFine (asmRaw b).adcPressure →
    runMeasure s = .next
      { s with
        block := { s.block with tFine := tp.tFine, tseq := .consumed }
        rsp := some ⟨.ok, p, 0#32⟩
        env := e
        trace := s.trace ++
          [.command (encode .rdraw), .busRead s.cfg.dataBase 6 (.ok b),
            .response ⟨.ok, zextCount (asmRaw b).adcTemperature, zextCount (asmRaw b).adcPressure⟩,
            .command (encode (.cmpt (asmRaw b).adcTemperature)), .response ⟨.ok, tp.temp, 0#32⟩,
            .command (encode (.cmpp (asmRaw b).adcPressure)), .response ⟨.ok, p, 0#32⟩] }) ∧
  (∀ (s : State) (o : BusOutcome) (e : Env), s.env.busRead s.cfg.dataBase 6 = some (o, e) → (∀ b, o ≠ .ok b) →
    runMeasure s = .next
      { s with
        rsp := some ⟨.ioError, 0#32, 0#32⟩
        env := e
        trace := s.trace ++
          [.command (encode .rdraw), .busRead s.cfg.dataBase 6 o, .response ⟨.ioError, 0#32, 0#32⟩] })

/-- The invariant holds at reset; that the parameters are the defaults there is log entry 2, and that no response is held is
log entry 16. -/
def Obligations.ResetMeetsTheInvariant : Prop := State.reset.Inv

/-- Every step keeps the invariant, from every state that meets it: the parameters meet their constraints (R8); a phase
other than `UNSET` means a calibrated block and a `T_FINE` in the range of R105 (R23, R25); the byte spaces stay in
canonical form; a non-`OK` response carries zeros (R160). -/
def Obligations.EveryStepKeepsTheInvariant : Prop := ∀ s t : State, s.Inv → step s = .next t → t.Inv

/-- No response, no transaction, no observable and no stop depends on the contents that the spec gives no value: `CAL`
while `CAL_VALID = 0` and `T_FINE` while `TSEQ = UNSET` (R35, U4: "no claim may depend on the content"). Two states that
differ only there stay so, step by step, and the host sees the same of both. -/
def Obligations.UnspecifiedContentsNeverShow : Prop :=
  ∀ s s' : State, s.Agree s' →
    s.block.observe = s'.block.observe ∧
    (∀ t, step s = .next t → ∃ t', step s' = .next t' ∧ t.Agree t') ∧
    (∀ f, step s = .fault f → step s' = .fault f)

/-- The run's fault record (R169, U1 to U3), which the model derives from the trace (log entry 28): clear at reset; a
command that ends `IllegalCommand`, `NotCalibrated` or `TFineUnset` sets it, a command that ends with any other status
leaves it as it was, and so does a step with no command (log entry 10); so no step clears it. -/
def Obligations.RunFaultIsSticky : Prop :=
  State.reset.runFault = false ∧
  (∀ (s t : State) (w : Word) (rest : List Word), s.hostCommands = w :: rest → step s = .next t →
    ∃ r, t.rsp = some r ∧
      (r.status = .illegalCommand ∨ r.status = .notCalibrated ∨ r.status = .tFineUnset → t.runFault = true) ∧
      (r.status = .ok ∨ r.status = .ioError ∨ r.status = .invalidPin → t.runFault = s.runFault)) ∧
  (∀ s t : State, s.hostCommands = [] → step s = .next t → t.runFault = s.runFault) ∧
  (∀ s t : State, step s = .next t → s.runFault = true → t.runFault = true)
end

