-- ==== Sys2Proof/Laws/Memory.lean ====
section
/-! SUPPORT. Laws/Memory.lean: the byte spaces: a read after a write, what a write leaves alone, the canonical form, and
the same for little-endian words and for FaithfulBank. -/
namespace Sys2Proof.Machine

/-! ### Bytes -/

@[simp] theorem Memory.get_nil (a : Nat) : Memory.get [] a = Memory.blank := rfl

theorem Memory.get_cons_eq (k : Nat) (v : Byte) (m : Memory) (a : Nat) :
    Memory.get ((k, v) :: m) a = if k = a then v else Memory.get m a := rfl

/-- Addresses below every listed one read as the unlisted byte. -/
theorem Memory.get_of_lt {m : Memory} {a : Nat} (h : ∀ c ∈ m, a < c.1) : m.get a = Memory.blank := by
  induction m with
  | nil => rfl
  | cons c m ih =>
    obtain ⟨k, v⟩ := c
    have hk : a < k := h (k, v) (by simp)
    rw [Memory.get_cons_eq, if_neg (by omega)]
    exact ih fun c hc => h c (by simp [hc])

theorem Memory.get_mkCell {m : Memory} {a : Nat} (v : Byte) (h : ∀ c ∈ m, a < c.1) (b : Nat) :
    (Memory.cons a v m).get b = if b = a then v else m.get b := by
  unfold Memory.cons
  by_cases hv : v = Memory.blank
  · by_cases hb : b = a
    · rw [if_pos hv, if_pos hb, hb, hv, Memory.get_of_lt h]
    · rw [if_pos hv, if_neg hb]
  · rw [if_neg hv, Memory.get_cons_eq]
    by_cases hb : b = a
    · rw [if_pos hb.symm, if_pos hb]
    · rw [if_neg (Ne.symm hb), if_neg hb]

/-- The head of a space in canonical form lies below the rest. -/
theorem Memory.wf.head_lt {k : Nat} {u : Byte} {m : Memory} (h : Memory.wf ((k, u) :: m)) : ∀ c ∈ m, k < c.1 :=
  (List.pairwise_cons.mp h.1).1

theorem Memory.wf.tail {c : Host.Cell} {m : Memory} (h : Memory.wf (c :: m)) : Memory.wf m :=
  ⟨(List.pairwise_cons.mp h.1).2, fun d hd => h.2 d (List.mem_cons_of_mem _ hd)⟩

/-- One byte after a write: the byte written at its own address, every other byte as before. -/
theorem Memory.get_set {m : Memory} (h : m.wf) (a b : Nat) (v : Byte) :
    (m.set a v).get b = if b = a then v else m.get b := by
  induction m with
  | nil => exact Memory.get_mkCell v (by simp) b
  | cons c m ih =>
    obtain ⟨k, u⟩ := c
    have hlt := h.head_lt
    simp only [Memory.set]
    split
    · rename_i hak
      refine Memory.get_mkCell v (fun c hc => ?_) b
      rcases List.mem_cons.mp hc with rfl | hc
      · exact hak
      · exact Nat.lt_trans hak (hlt c hc)
    · split
      · rename_i hak
        subst hak
        rw [Memory.get_mkCell v hlt b, Memory.get_cons_eq]
        by_cases hb : b = a
        · rw [if_pos hb, if_pos hb]
        · rw [if_neg hb, if_neg hb, if_neg (Ne.symm hb)]
      · rename_i hak
        rw [Memory.get_cons_eq, ih h.tail, Memory.get_cons_eq]
        by_cases hb : b = a
        · rw [if_pos hb, if_pos hb, if_neg (by omega)]
        · rw [if_neg hb, if_neg hb]

theorem Memory.mem_mkCell {a : Nat} {v : Byte} {m : Memory} {c : Host.Cell} (h : c ∈ Memory.cons a v m) :
    c = (a, v) ∨ c ∈ m := by
  unfold Memory.cons at h
  split at h
  · exact .inr h
  · exact List.mem_cons.mp h

theorem Memory.mem_set {m : Memory} {a : Nat} {v : Byte} {c : Host.Cell} (h : c ∈ m.set a v) : c = (a, v) ∨ c ∈ m := by
  induction m with
  | nil => exact Memory.mem_mkCell h
  | cons d m ih =>
    obtain ⟨k, u⟩ := d
    simp only [Memory.set] at h
    split at h
    · exact Memory.mem_mkCell h
    · split at h
      · exact (Memory.mem_mkCell h).imp_right (List.mem_cons_of_mem _)
      · rcases List.mem_cons.mp h with h | h
        · exact .inr (h ▸ List.mem_cons_self)
        · exact (ih h).imp_right (List.mem_cons_of_mem _)

theorem Memory.wf_mkCell {m : Memory} {a : Nat} (v : Byte) (h : m.wf) (hlt : ∀ c ∈ m, a < c.1) :
    (Memory.cons a v m).wf := by
  unfold Memory.cons
  split
  · exact h
  · rename_i hv
    refine ⟨List.pairwise_cons.mpr ⟨hlt, h.1⟩, fun c hc => ?_⟩
    rcases List.mem_cons.mp hc with rfl | hc
    · exact hv
    · exact h.2 c hc

/-- A byte write keeps the canonical form. -/
theorem Memory.wf_set {m : Memory} (h : m.wf) (a : Nat) (v : Byte) : (m.set a v).wf := by
  induction m with
  | nil => exact Memory.wf_mkCell v h (by simp)
  | cons c m ih =>
    obtain ⟨k, u⟩ := c
    have hlt := h.head_lt
    simp only [Memory.set]
    split
    · rename_i hak
      refine Memory.wf_mkCell v h fun c hc => ?_
      rcases List.mem_cons.mp hc with rfl | hc
      · exact hak
      · exact Nat.lt_trans hak (hlt c hc)
    · split
      · rename_i hak
        subst hak
        exact Memory.wf_mkCell v h.tail hlt
      · rename_i h1 h2
        refine ⟨List.pairwise_cons.mpr ⟨fun c hc => ?_, (ih h.tail).1⟩, fun c hc => ?_⟩
        · rcases Memory.mem_set hc with rfl | hc
          · show k < a
            omega
          · exact hlt c hc
        · rcases List.mem_cons.mp hc with rfl | hc
          · exact h.2 _ List.mem_cons_self
          · exact (ih h.tail).2 c hc

theorem Memory.wf_nil : Memory.wf [] := by decide

/-! ### Words -/

/-- A word store keeps the canonical form. -/
theorem Memory.wf_store32 {m : Memory} (h : m.wf) (a : Nat) (w : Word) : (m.store32 a w).wf :=
  Memory.wf_set (Memory.wf_set (Memory.wf_set (Memory.wf_set h _ _) _ _) _ _) _ _

/-- One byte after a word store: the word's bytes at `a` to `a+3`, every other byte as before. -/
theorem Memory.get_store32 {m : Memory} (h : m.wf) (a b : Nat) (w : Word) :
    (m.store32 a w).get b = if a ≤ b ∧ b < a + 4 then byteOfWord w (b - a) else m.get b := by
  have h0 := Memory.wf_set h a (byteOfWord w 0)
  have h1 := Memory.wf_set h0 (a + 1) (byteOfWord w 1)
  have h2 := Memory.wf_set h1 (a + 2) (byteOfWord w 2)
  rw [Memory.store32, Memory.get_set h2, Memory.get_set h1, Memory.get_set h0, Memory.get_set h]
  by_cases hb : a ≤ b ∧ b < a + 4
  · rw [if_pos hb]
    obtain ⟨k, rfl⟩ := Nat.exists_eq_add_of_le hb.1
    have hk : k < 4 := by omega
    match k, hk with
    | 0, _ => simp
    | 1, _ => simp
    | 2, _ => simp
    | 3, _ => simp
  · rw [if_neg hb, if_neg (by omega), if_neg (by omega), if_neg (by omega), if_neg (by omega)]

/-- The four bytes of a word put together again. -/
theorem bytes_of_word (w : Word) :
    (byteOfWord w 3 ++ byteOfWord w 2 ++ byteOfWord w 1 ++ byteOfWord w 0 : BitVec 32) = w := by
  ext i hi
  simp only [byteOfWord, BitVec.getElem_append, BitVec.getElem_extractLsb']
  split
  · simp; rfl
  · split
    · rw [BitVec.getLsbD_eq_getElem (by omega)]; congr 1; omega
    · split
      · rw [BitVec.getLsbD_eq_getElem (by omega)]; congr 1; omega
      · rw [BitVec.getLsbD_eq_getElem (by omega)]; congr 1; omega

/-- A word read back after it was stored. -/
theorem Memory.load32_store32_same {m : Memory} (h : m.wf) (a : Nat) (w : Word) : (m.store32 a w).load32 a = w := by
  simp only [Memory.load32, Memory.get_store32 h]
  simpa using bytes_of_word w

/-- A word store leaves the words that share no byte with it alone. -/
theorem Memory.load32_store32_of_disjoint {m : Memory} (h : m.wf) {a b : Nat} (w : Word) (hd : rangesDisjoint a 4 b 4) :
    (m.store32 a w).load32 b = m.load32 b := by
  have key : ∀ k < 4, (m.store32 a w).get (b + k) = m.get (b + k) := fun k hk => by
    rw [Memory.get_store32 h, if_neg (by rcases hd with hd | hd <;> omega)]
  simp only [Memory.load32]
  rw [key 3 (by omega), key 2 (by omega), key 1 (by omega), show (m.store32 a w).get b = m.get b from key 0 (by omega)]

/-! ### FaithfulBank -/

/-- Every write to FaithfulBank keeps the canonical form. -/
theorem bankPut_wf (c : Config) {m : Memory} (h : m.wf) (w : BankWrite) : (bankPut c m w).wf := by
  unfold bankPut
  split <;> first | exact h | exact Memory.wf_store32 h _ _

theorem bankPut_foldl_wf (c : Config) (ws : List BankWrite) {m : Memory} (h : m.wf) : (ws.foldl (bankPut c) m).wf := by
  induction ws generalizing m with
  | nil => exact h
  | cons w ws ih => exact ih (bankPut_wf c h w)

theorem wordIndex_wordOffset {base : Word} {words i : Nat} (hi : i < words) (hf : base.toNat + 4 * words ≤ 2 ^ 32) :
    wordIndex base words (wordOffset base i) = some i := by
  have hoff : (wordOffset base i).toNat = base.toNat + 4 * i := by
    rw [wordOffset, BitVec.toNat_add, BitVec.toNat_ofNat]
    omega
  simp only [wordIndex, hoff]
  rw [if_pos ⟨by omega, by omega, by omega⟩]
  congr 1
  omega

theorem wordIndex_eq_none {base : Word} {words : Nat} {off : Word}
    (h : off.toNat < base.toNat ∨ base.toNat + 4 * words ≤ off.toNat) : wordIndex base words off = none := by
  simp only [wordIndex]
  rw [if_neg]
  omega

end Sys2Proof.Machine
end

