-- ==== Sys2Proof/Laws/State.lean ====
section
/-! SUPPORT. Laws/State.lean: what each named update of the state does to each field, so that no later proof unfolds a
record update. -/
namespace Sys2Proof.Machine

/-! ### `State.log` -/

@[simp] theorem State.log_cfg (s : State) (e : Event) : (s.log e).cfg = s.cfg := rfl
@[simp] theorem State.log_block (s : State) (e : Event) : (s.log e).block = s.block := rfl
@[simp] theorem State.log_rsp (s : State) (e : Event) : (s.log e).rsp = s.rsp := rfl
@[simp] theorem State.log_hostCommands (s : State) (e : Event) : (s.log e).hostCommands = s.hostCommands := rfl
@[simp] theorem State.log_env (s : State) (e : Event) : (s.log e).env = s.env := rfl
@[simp] theorem State.log_trace (s : State) (e : Event) : (s.log e).trace = s.trace ++ [e] := rfl

/-! ### `State.setEnv` -/

@[simp] theorem State.setEnv_cfg (s : State) (e : Env) : (s.setEnv e).cfg = s.cfg := rfl
@[simp] theorem State.setEnv_block (s : State) (e : Env) : (s.setEnv e).block = s.block := rfl
@[simp] theorem State.setEnv_rsp (s : State) (e : Env) : (s.setEnv e).rsp = s.rsp := rfl
@[simp] theorem State.setEnv_hostCommands (s : State) (e : Env) : (s.setEnv e).hostCommands = s.hostCommands := rfl
@[simp] theorem State.setEnv_env (s : State) (e : Env) : (s.setEnv e).env = e := rfl
@[simp] theorem State.setEnv_trace (s : State) (e : Env) : (s.setEnv e).trace = s.trace := rfl

/-! ### `State.setBlock` -/

@[simp] theorem State.setBlock_cfg (s : State) (b : Block) : (s.setBlock b).cfg = s.cfg := rfl
@[simp] theorem State.setBlock_block (s : State) (b : Block) : (s.setBlock b).block = b := rfl
@[simp] theorem State.setBlock_rsp (s : State) (b : Block) : (s.setBlock b).rsp = s.rsp := rfl
@[simp] theorem State.setBlock_hostCommands (s : State) (b : Block) : (s.setBlock b).hostCommands = s.hostCommands := rfl
@[simp] theorem State.setBlock_env (s : State) (b : Block) : (s.setBlock b).env = s.env := rfl
@[simp] theorem State.setBlock_trace (s : State) (b : Block) : (s.setBlock b).trace = s.trace := rfl

/-! ### `State.deliver` -/

@[simp] theorem State.deliver_cfg (s : State) (r : Response) : (s.deliver r).cfg = s.cfg := rfl
@[simp] theorem State.deliver_block (s : State) (r : Response) : (s.deliver r).block = s.block := rfl
@[simp] theorem State.deliver_rsp (s : State) (r : Response) : (s.deliver r).rsp = some r := rfl
@[simp] theorem State.deliver_hostCommands (s : State) (r : Response) : (s.deliver r).hostCommands = s.hostCommands := rfl
@[simp] theorem State.deliver_env (s : State) (r : Response) : (s.deliver r).env = s.env := rfl
@[simp] theorem State.deliver_trace (s : State) (r : Response) : (s.deliver r).trace = s.trace ++ [.response r] := rfl

/-! ### `State.respond` -/

@[simp] theorem State.respond_cfg (s : State) (d0 d1 : Word) : (s.respond d0 d1).cfg = s.cfg := rfl
@[simp] theorem State.respond_block (s : State) (d0 d1 : Word) : (s.respond d0 d1).block = s.block := rfl
@[simp] theorem State.respond_rsp (s : State) (d0 d1 : Word) : (s.respond d0 d1).rsp = some ⟨.ok, d0, d1⟩ := rfl
@[simp] theorem State.respond_hostCommands (s : State) (d0 d1 : Word) : (s.respond d0 d1).hostCommands = s.hostCommands := rfl
@[simp] theorem State.respond_env (s : State) (d0 d1 : Word) : (s.respond d0 d1).env = s.env := rfl
@[simp] theorem State.respond_trace (s : State) (d0 d1 : Word) : (s.respond d0 d1).trace = s.trace ++ [.response ⟨.ok, d0, d1⟩] := rfl

/-! ### `State.raise` -/

@[simp] theorem State.raise_cfg (s : State) (e : Status) : (s.raise e).cfg = s.cfg := rfl
@[simp] theorem State.raise_block (s : State) (e : Status) : (s.raise e).block = s.block := rfl
@[simp] theorem State.raise_rsp (s : State) (e : Status) : (s.raise e).rsp = some ⟨e, 0#32, 0#32⟩ := rfl
@[simp] theorem State.raise_hostCommands (s : State) (e : Status) : (s.raise e).hostCommands = s.hostCommands := rfl
@[simp] theorem State.raise_env (s : State) (e : Status) : (s.raise e).env = s.env := rfl
@[simp] theorem State.raise_trace (s : State) (e : Status) : (s.raise e).trace = s.trace ++ [.response ⟨e, 0#32, 0#32⟩] := rfl

/-! ### `State.present` -/

@[simp] theorem State.present_cfg (s : State) (w : Word) : (s.present w).cfg = s.cfg := rfl
@[simp] theorem State.present_block (s : State) (w : Word) : (s.present w).block = s.block := rfl
@[simp] theorem State.present_rsp (s : State) (w : Word) : (s.present w).rsp = s.rsp := rfl
@[simp] theorem State.present_hostCommands (s : State) (w : Word) : (s.present w).hostCommands = w :: s.hostCommands := rfl
@[simp] theorem State.present_env (s : State) (w : Word) : (s.present w).env = s.env := rfl
@[simp] theorem State.present_trace (s : State) (w : Word) : (s.present w).trace = s.trace := rfl

/-! ### `Block.loadCal` -/

@[simp] theorem Block.loadCal_cal (b : Block) (c : CalSet) : (b.loadCal c).cal = c := rfl
@[simp] theorem Block.loadCal_calValid (b : Block) (c : CalSet) : (b.loadCal c).calValid = true := rfl
@[simp] theorem Block.loadCal_tFine (b : Block) (c : CalSet) : (b.loadCal c).tFine = b.tFine := rfl
@[simp] theorem Block.loadCal_tseq (b : Block) (c : CalSet) : (b.loadCal c).tseq = b.tseq := rfl

/-! ### `Block.storeTFine` -/

@[simp] theorem Block.storeTFine_cal (b : Block) (t : Word) : (b.storeTFine t).cal = b.cal := rfl
@[simp] theorem Block.storeTFine_calValid (b : Block) (t : Word) : (b.storeTFine t).calValid = b.calValid := rfl
@[simp] theorem Block.storeTFine_tFine (b : Block) (t : Word) : (b.storeTFine t).tFine = t := rfl
@[simp] theorem Block.storeTFine_tseq (b : Block) (t : Word) : (b.storeTFine t).tseq = b.tseq.afterCmpt := rfl

/-! ### `Block.consumeTFine` -/

@[simp] theorem Block.consumeTFine_cal (b : Block) : (b.consumeTFine).cal = b.cal := rfl
@[simp] theorem Block.consumeTFine_calValid (b : Block) : (b.consumeTFine).calValid = b.calValid := rfl
@[simp] theorem Block.consumeTFine_tFine (b : Block) : (b.consumeTFine).tFine = b.tFine := rfl
@[simp] theorem Block.consumeTFine_tseq (b : Block) : (b.consumeTFine).tseq = b.tseq.afterCmpp := rfl

/-! ### The sequencer's phases -/

@[simp] theorem Tseq.afterCmpt_eq (p : Tseq) : p.afterCmpt = .fresh := by cases p <;> rfl

theorem Tseq.afterCmpp_eq {p : Tseq} (h : p ≠ .unset) : p.afterCmpp = .consumed := by
  cases p <;> first | rfl | exact absurd rfl h

@[simp] theorem Tseq.stale_iff (p : Tseq) : p.stale = true ↔ p = .consumed := by cases p <;> decide

/-! ### Taking a command -/

theorem State.takeCommand_nil {s : State} (h : s.hostCommands = []) : s.takeCommand = none := by
  simp [State.takeCommand, h]

theorem State.takeCommand_cons {s : State} {w : Word} {rest : List Word} (h : s.hostCommands = w :: rest) :
    s.takeCommand = some (w, { s with hostCommands := rest, trace := s.trace ++ [.command w] }) := by
  simp [State.takeCommand, h]

theorem State.takeCommand_present (s : State) (w : Word) : (s.present w).takeCommand = some (w, s.log (.command w)) := rfl

end Sys2Proof.Machine
end

