-- ==== Sys2Proof/Laws/Bank.lean ====
section
/-! SUPPORT. Laws/Bank.lean: which word of FaithfulBank each offset the block computes is, and what the transactions on
the bank do. -/
namespace Sys2Proof.Machine

/-! ### Where the block's offsets lie (R50) -/

theorem levelWord_lt {pin : Nat} (h : pin < pinCount) : levelWord pin < levelWords := by
  simp only [levelWord, pinsPerWord, levelWords, pinCount] at *
  omega

theorem fselWord_lt {pin : Nat} (h : pin < pinCount) : fselWord pin < fselWords := by
  simp only [fselWord, fselPerWord, fselWords, pinCount] at *
  omega

/-- The offset of a word of a block, as a number: no wrap under the constraints of R8. -/
theorem toNat_wordOffset {base : Word} {words i : Nat} (hi : i < words) (hf : base.toNat + 4 * words ≤ 2 ^ 32) :
    (wordOffset base i).toNat = base.toNat + 4 * i := by
  rw [wordOffset, BitVec.toNat_add, BitVec.toNat_ofNat]
  omega

theorem regionOf_fsel {c : Config} (hc : c.Ok) {i : Nat} (hi : i < fselWords) :
    regionOf c (wordOffset c.fselOff i) = some (.fsel, i) := by
  have h := wordIndex_wordOffset hi (base := c.fselOff) (by have := hc.fselFits; simpa [fselWords] using this)
  simp [regionOf, h]

theorem regionOf_set {c : Config} (hc : c.Ok) {i : Nat} (hi : i < levelWords) :
    regionOf c (wordOffset c.setOff i) = some (.set, i) := by
  have hf : c.setOff.toNat + 4 * levelWords ≤ 2 ^ 32 := by have := hc.setFits; simpa [levelWords] using this
  have ho := toNat_wordOffset hi hf
  have hd := hc.fselSet
  simp only [levelWords] at hi
  have hn : wordIndex c.fselOff fselWords (wordOffset c.setOff i) = none :=
    wordIndex_eq_none (by rw [ho]; simp only [fselWords]; rcases hd with hd | hd <;> omega)
  simp [regionOf, hn, wordIndex_wordOffset (words := levelWords) hi hf]

theorem regionOf_clr {c : Config} (hc : c.Ok) {i : Nat} (hi : i < levelWords) :
    regionOf c (wordOffset c.clrOff i) = some (.clear, i) := by
  have hf : c.clrOff.toNat + 4 * levelWords ≤ 2 ^ 32 := by have := hc.clrFits; simpa [levelWords] using this
  have ho := toNat_wordOffset hi hf
  have hd := hc.fselClr
  have hd2 := hc.setClr
  simp only [levelWords] at hi
  have hn : wordIndex c.fselOff fselWords (wordOffset c.clrOff i) = none :=
    wordIndex_eq_none (by rw [ho]; simp only [fselWords]; rcases hd with hd | hd <;> omega)
  have hn2 : wordIndex c.setOff levelWords (wordOffset c.clrOff i) = none :=
    wordIndex_eq_none (by rw [ho]; simp only [levelWords]; rcases hd2 with hd | hd <;> omega)
  simp [regionOf, hn, hn2, wordIndex_wordOffset (words := levelWords) hi hf]

theorem regionOf_lev {c : Config} (hc : c.Ok) {i : Nat} (hi : i < levelWords) :
    regionOf c (wordOffset c.levOff i) = some (.level, i) := by
  have hf : c.levOff.toNat + 4 * levelWords ≤ 2 ^ 32 := by have := hc.levFits; simpa [levelWords] using this
  have ho := toNat_wordOffset hi hf
  have hd := hc.fselLev
  have hd2 := hc.setLev
  have hd3 := hc.clrLev
  simp only [levelWords] at hi
  have hn : wordIndex c.fselOff fselWords (wordOffset c.levOff i) = none :=
    wordIndex_eq_none (by rw [ho]; simp only [fselWords]; rcases hd with hd | hd <;> omega)
  have hn2 : wordIndex c.setOff levelWords (wordOffset c.levOff i) = none :=
    wordIndex_eq_none (by rw [ho]; simp only [levelWords]; rcases hd2 with hd | hd <;> omega)
  have hn3 : wordIndex c.clrOff levelWords (wordOffset c.levOff i) = none :=
    wordIndex_eq_none (by rw [ho]; simp only [levelWords]; rcases hd3 with hd | hd <;> omega)
  simp [regionOf, hn, hn2, hn3, wordIndex_wordOffset (words := levelWords) hi hf]

theorem regionOf_fselAddr {c : Config} (hc : c.Ok) {pin : Nat} (h : pin < pinCount) :
    regionOf c (fselAddr c pin) = some (.fsel, fselWord pin) :=
  regionOf_fsel hc (fselWord_lt h)

theorem regionOf_setAddr {c : Config} (hc : c.Ok) {pin : Nat} (h : pin < pinCount) :
    regionOf c (setAddr c pin) = some (.set, levelWord pin) :=
  regionOf_set hc (levelWord_lt h)

theorem regionOf_clrAddr {c : Config} (hc : c.Ok) {pin : Nat} (h : pin < pinCount) :
    regionOf c (clrAddr c pin) = some (.clear, levelWord pin) :=
  regionOf_clr hc (levelWord_lt h)

theorem regionOf_levAddr {c : Config} (hc : c.Ok) {pin : Nat} (h : pin < pinCount) :
    regionOf c (levAddr c pin) = some (.level, levelWord pin) :=
  regionOf_lev hc (levelWord_lt h)

/-! ### The environment's side of a bank transaction -/

/-- Word writes to the bank change the bank's bytes at most. -/
theorem Env.bankUpdate_spec (e : Env) (c : Config) (ws : List BankWrite) :
    e.bankUpdate c ws = { e with bankMem := (e.bankUpdate c ws).bankMem } := by
  unfold Env.bankUpdate
  split <;> rfl

theorem Env.bankUpdate_faithful {e : Env} (h : e.bank = .faithful) (c : Config) (ws : List BankWrite) :
    e.bankUpdate c ws = { e with bankMem := ws.foldl (bankPut c) e.bankMem } := by
  unfold Env.bankUpdate
  rw [h]

theorem Env.bankUpdate_nil (e : Env) (c : Config) : e.bankUpdate c [] = e := by
  unfold Env.bankUpdate
  split <;> rfl

@[simp] theorem Env.bankUpdate_sensor (e : Env) (c : Config) (ws : List BankWrite) :
    (e.bankUpdate c ws).sensor = e.sensor := by rw [Env.bankUpdate_spec]

@[simp] theorem Env.bankUpdate_sensorMem (e : Env) (c : Config) (ws : List BankWrite) :
    (e.bankUpdate c ws).sensorMem = e.sensorMem := by rw [Env.bankUpdate_spec]

@[simp] theorem Env.bankUpdate_busScript (e : Env) (c : Config) (ws : List BankWrite) :
    (e.bankUpdate c ws).busScript = e.busScript := by rw [Env.bankUpdate_spec]

@[simp] theorem Env.bankUpdate_bank (e : Env) (c : Config) (ws : List BankWrite) :
    (e.bankUpdate c ws).bank = e.bank := by rw [Env.bankUpdate_spec]

@[simp] theorem Env.bankUpdate_memScript (e : Env) (c : Config) (ws : List BankWrite) :
    (e.bankUpdate c ws).memScript = e.memScript := by rw [Env.bankUpdate_spec]

@[simp] theorem Env.bankUpdate_others (e : Env) (c : Config) (ws : List BankWrite) :
    (e.bankUpdate c ws).others = e.others := by rw [Env.bankUpdate_spec]

@[simp] theorem Env.bankUpdate_draws (e : Env) (c : Config) (ws : List BankWrite) :
    (e.bankUpdate c ws).draws = e.draws := by rw [Env.bankUpdate_spec]

theorem Env.bankUpdate_wf {e : Env} (h : e.bankMem.wf) (c : Config) (ws : List BankWrite) :
    (e.bankUpdate c ws).bankMem.wf := by
  unfold Env.bankUpdate
  split
  · exact h
  · exact bankPut_foldl_wf c ws h

/-- Interference consumes one list of writes and changes the bank's bytes at most. -/
theorem Env.interfere_spec (e : Env) (c : Config) :
    e.interfere c = { e with bankMem := (e.interfere c).bankMem, others := e.others.tail } := by
  unfold Env.interfere
  split
  · rename_i h
    rw [h]
    simp only [List.tail_nil]
    rw [← h]
  · rename_i ws rest h
    rw [Env.bankUpdate_spec]
    simp [h]

/-- Under exclusive access the only effect of interference is that its empty list is gone. -/
theorem Env.interfere_exclusive {e : Env} (h : e.Exclusive) (c : Config) :
    e.interfere c = { e with others := e.others.tail } := by
  unfold Env.interfere
  split
  · rename_i h'
    rw [h']
    simp only [List.tail_nil]
    rw [← h']
  · rename_i ws rest h'
    have hw : ws = [] := h ws (by rw [h']; simp)
    rw [hw, Env.bankUpdate_nil, h']
    rfl

theorem Env.Exclusive.tail {e : Env} (h : e.Exclusive) (c : Config) : (e.interfere c).Exclusive := by
  rw [Env.interfere_exclusive h]
  exact fun ws hw => h ws (List.mem_of_mem_tail hw)

@[simp] theorem Env.interfere_sensor (e : Env) (c : Config) : (e.interfere c).sensor = e.sensor := by
  rw [Env.interfere_spec]

@[simp] theorem Env.interfere_sensorMem (e : Env) (c : Config) : (e.interfere c).sensorMem = e.sensorMem := by
  rw [Env.interfere_spec]

@[simp] theorem Env.interfere_busScript (e : Env) (c : Config) : (e.interfere c).busScript = e.busScript := by
  rw [Env.interfere_spec]

@[simp] theorem Env.interfere_bank (e : Env) (c : Config) : (e.interfere c).bank = e.bank := by
  rw [Env.interfere_spec]

theorem Env.interfere_wf {e : Env} (h : e.bankMem.wf) (c : Config) : (e.interfere c).bankMem.wf := by
  unfold Env.interfere
  split
  · exact h
  · exact Env.bankUpdate_wf h c _

/-- Answering a read changes the answers still to come and the count of free values, at most. -/
theorem Env.bankAnswer_spec (e : Env) (c : Config) (off : Word) :
    (e.bankAnswer c off).2 =
      { e with memScript := (e.bankAnswer c off).2.memScript, draws := (e.bankAnswer c off).2.draws } := by
  unfold Env.bankAnswer Env.freeWord
  split
  · split <;> rfl
  · split <;> rfl

/-- FaithfulBank answers with the word it keeps. -/
theorem Env.bankAnswer_faithful {e : Env} (h : e.bank = .faithful) {c : Config} {off w : Word}
    (hg : bankGet c e.bankMem off = some w) : e.bankAnswer c off = (w, e) := by
  unfold Env.bankAnswer
  rw [h]
  simp [hg]

theorem bankGet_fselAddr {c : Config} (hc : c.Ok) {pin : Nat} (h : pin < pinCount) (m : Memory) :
    bankGet c m (fselAddr c pin) = some (m.load32 (fselByte c (fselWord pin))) := by
  simp [bankGet, regionOf_fselAddr hc h]

theorem bankGet_levAddr {c : Config} (hc : c.Ok) {pin : Nat} (h : pin < pinCount) (m : Memory) :
    bankGet c m (levAddr c pin) = some (m.load32 (levelByte c (levelWord pin))) := by
  simp [bankGet, regionOf_levAddr hc h]

theorem bankPut_fselAddr {c : Config} (hc : c.Ok) {pin : Nat} (h : pin < pinCount) (m : Memory) (v : Word) :
    bankPut c m ⟨fselAddr c pin, v⟩ = m.store32 (fselByte c (fselWord pin)) v := by
  simp [bankPut, regionOf_fselAddr hc h]

theorem bankPut_setAddr {c : Config} (hc : c.Ok) {pin : Nat} (h : pin < pinCount) (m : Memory) (v : Word) :
    bankPut c m ⟨setAddr c pin, v⟩ =
      m.store32 (levelByte c (levelWord pin)) (m.load32 (levelByte c (levelWord pin)) ||| v) := by
  simp [bankPut, regionOf_setAddr hc h]

theorem bankPut_clrAddr {c : Config} (hc : c.Ok) {pin : Nat} (h : pin < pinCount) (m : Memory) (v : Word) :
    bankPut c m ⟨clrAddr c pin, v⟩ =
      m.store32 (levelByte c (levelWord pin)) (m.load32 (levelByte c (levelWord pin)) &&& ~~~v) := by
  simp [bankPut, regionOf_clrAddr hc h]

/-- A function-select word and a level word of FaithfulBank share no byte. -/
theorem fsel_level_disjoint {c : Config} (hc : c.Ok) {i j : Nat} (hi : i < fselWords) (hj : j < levelWords) :
    rangesDisjoint (fselByte c i) 4 (levelByte c j) 4 := by
  have := hc.fselLev
  simp only [fselByte, levelByte, fselWords, levelWords, rangesDisjoint] at *
  omega

/-- Two different words of one block share no byte. -/
theorem words_disjoint (base : Nat) {i j : Nat} (h : i ≠ j) : rangesDisjoint (base + 4 * i) 4 (base + 4 * j) 4 := by
  simp only [rangesDisjoint]
  omega

end Sys2Proof.Machine
end

