-- ==== Sys2Proof/Laws/Decode.lean ====
section
/-! SUPPORT. Laws/Decode.lean: the fields of a packed word, a word as its fields, and the opcode map in both directions. -/
namespace Sys2Proof

theorem toNat_append_eq {n m : Nat} (a : BitVec n) (b : BitVec m) : (a ++ b).toNat = a.toNat * 2 ^ m + b.toNat := by
  rw [BitVec.toNat_append, ← Nat.shiftLeft_add_eq_or_of_lt b.isLt, Nat.shiftLeft_eq]

/-- A word as a number, from its fields (R61). -/
theorem packFields_toNat (opc : BitVec 8) (rsv : BitVec 3) (v : BitVec 1) (arg : BitVec 20) :
    (packFields opc rsv v arg).toNat = opc.toNat * 2 ^ 24 + rsv.toNat * 2 ^ 21 + v.toNat * 2 ^ 20 + arg.toNat := by
  unfold packFields
  rw [toNat_append_eq, toNat_append_eq, toNat_append_eq]
  omega

theorem opcField_toNat (w : Word) : (opcField w).toNat = w.toNat / 2 ^ 24 := by
  have := w.isLt
  rw [opcField, BitVec.extractLsb'_toNat, Nat.shiftRight_eq_div_pow]
  omega

theorem rsvField_toNat (w : Word) : (rsvField w).toNat = w.toNat / 2 ^ 21 % 2 ^ 3 := by
  rw [rsvField, BitVec.extractLsb'_toNat, Nat.shiftRight_eq_div_pow]

theorem vField_toNat (w : Word) : (vField w).toNat = w.toNat / 2 ^ 20 % 2 ^ 1 := by
  rw [vField, BitVec.extractLsb'_toNat, Nat.shiftRight_eq_div_pow]

theorem argField_toNat (w : Word) : (argField w).toNat = w.toNat % 2 ^ 20 := by
  rw [argField, BitVec.extractLsb'_toNat, Nat.shiftRight_eq_div_pow]
  omega

@[simp] theorem opcField_pack (opc : BitVec 8) (rsv : BitVec 3) (v : BitVec 1) (arg : BitVec 20) :
    opcField (packFields opc rsv v arg) = opc := by
  apply BitVec.eq_of_toNat_eq
  have h1 := rsv.isLt
  have h2 := v.isLt
  have h3 := arg.isLt
  rw [opcField_toNat, packFields_toNat]
  omega

@[simp] theorem rsvField_pack (opc : BitVec 8) (rsv : BitVec 3) (v : BitVec 1) (arg : BitVec 20) :
    rsvField (packFields opc rsv v arg) = rsv := by
  apply BitVec.eq_of_toNat_eq
  have h1 := rsv.isLt
  have h2 := v.isLt
  have h3 := arg.isLt
  rw [rsvField_toNat, packFields_toNat]
  omega

@[simp] theorem vField_pack (opc : BitVec 8) (rsv : BitVec 3) (v : BitVec 1) (arg : BitVec 20) :
    vField (packFields opc rsv v arg) = v := by
  apply BitVec.eq_of_toNat_eq
  have h2 := v.isLt
  have h3 := arg.isLt
  rw [vField_toNat, packFields_toNat]
  omega

@[simp] theorem argField_pack (opc : BitVec 8) (rsv : BitVec 3) (v : BitVec 1) (arg : BitVec 20) :
    argField (packFields opc rsv v arg) = arg := by
  apply BitVec.eq_of_toNat_eq
  have h3 := arg.isLt
  rw [argField_toNat, packFields_toNat]
  omega

/-- A word is its four fields (R61). -/
theorem packFields_fields (w : Word) : packFields (opcField w) (rsvField w) (vField w) (argField w) = w := by
  apply BitVec.eq_of_toNat_eq
  have := w.isLt
  rw [packFields_toNat, opcField_toNat, rsvField_toNat, vField_toNat, argField_toNat]
  omega

/-- The opcode map finds each operation by its code (R63). -/
@[simp] theorem opOfCode_code (o : Op) : opOfCode o.code = some o := by cases o <;> rfl

theorem opOfCode_eq_some {c : BitVec 8} {o : Op} (h : opOfCode c = some o) : c = o.code := by
  have hc : (o.code == c) = true := List.find?_some (p := fun o : Op => o.code == c) h
  exact (eq_of_beq hc).symm

/-- A word decodes legally exactly when its reserved bits are 0, its opcode is assigned and the bits its variant has no
operand for are 0 (R72). -/
theorem decode_eq_legal_iff (w : Word) (i : Instr) :
    decode w = .legal i ↔
      rsvField w = 0#3 ∧ ∃ o : Op, opcField w = o.code ∧ o.variant.unusedBitsClear w = true ∧ i = o.withOperands w := by
  unfold decode
  by_cases hr : rsvField w = 0#3
  · simp only [hr, bne_self_eq_false, Bool.false_eq_true, if_false, true_and]
    constructor
    · intro h
      split at h
      · cases h
      · rename_i o ho
        split at h
        · rename_i hu
          cases h
          exact ⟨o, opOfCode_eq_some ho, hu, rfl⟩
        · cases h
    · rintro ⟨o, ho, hu, rfl⟩
      simp [ho, hu]
  · simp [hr]

end Sys2Proof
end

