-- ==== Sys2Proof/Laws/Ops.lean ====
section
/-! SUPPORT. Laws/Ops.lean: everything each channel operation of the block can do, said once. -/
namespace Sys2Proof.Machine

/-! ### RegisterChannel -/

/-- The outcome of an answer is `Ok` with exactly the bytes asked for, `Short` of fewer, or `Fail` (R41). -/
theorem busOutcome_cases (a : BusAnswer) (n : Nat) :
    (∃ b, busOutcome a n = .ok b ∧ b.length = n) ∨ (∃ k, busOutcome a n = .short k ∧ k < n) ∨ busOutcome a n = .fail := by
  unfold busOutcome
  split
  · rename_i bytes
    by_cases h1 : bytes.length = n
    · exact .inl ⟨bytes, by simp [h1], h1⟩
    · by_cases h2 : bytes.length < n
      · exact .inr (.inl ⟨bytes.length, by simp [h1, h2], h2⟩)
      · exact .inr (.inr (by simp [h1, h2]))
  · exact .inr (.inr rfl)

theorem Memory.length_slice (m : Memory) (a n : Nat) : (m.slice a n).length = n := by simp [Memory.slice]

/-- An unscripted read changes the count of free values at most. -/
theorem Env.unscriptedBusRead_spec (e : Env) (addr : Byte) (n : Nat) :
    (e.unscriptedBusRead addr n).2 = { e with draws := (e.unscriptedBusRead addr n).2.draws } := by
  unfold Env.unscriptedBusRead
  split <;> rfl

theorem Env.unscriptedBusRead_cases (e : Env) (addr : Byte) (n : Nat) :
    (∃ b, (e.unscriptedBusRead addr n).1 = .ok b ∧ b.length = n) ∨
      (∃ k, (e.unscriptedBusRead addr n).1 = .short k ∧ k < n) ∨ (e.unscriptedBusRead addr n).1 = .fail := by
  unfold Env.unscriptedBusRead
  split
  · exact .inl ⟨_, rfl, Memory.length_slice _ _ _⟩
  · exact busOutcome_cases _ n

/-- A channel that answers gives one of the three outcomes and changes its script and the count of free values, at most. -/
theorem Env.busRead_spec {e e' : Env} {addr : Byte} {n : Nat} {o : BusOutcome} (h : e.busRead addr n = some (o, e')) :
    ((∃ b, o = .ok b ∧ b.length = n) ∨ (∃ k, o = .short k ∧ k < n) ∨ o = .fail) ∧
      e' = { e with busScript := e'.busScript, draws := e'.draws } := by
  unfold Env.busRead at h
  split at h
  · cases h
  · cases h
    exact ⟨busOutcome_cases _ n, rfl⟩
  · have h := Option.some.inj h
    obtain rfl := congrArg Prod.fst h
    obtain rfl := congrArg Prod.snd h
    refine ⟨Env.unscriptedBusRead_cases _ addr n, ?_⟩
    rw [Env.unscriptedBusRead_spec]
  · have h := Option.some.inj h
    obtain rfl := congrArg Prod.fst h
    obtain rfl := congrArg Prod.snd h
    refine ⟨Env.unscriptedBusRead_cases _ addr n, ?_⟩
    rw [Env.unscriptedBusRead_spec]

/-- The channel fails to answer exactly where the script says so (R202, U10). -/
theorem Env.busRead_eq_none_iff (e : Env) (addr : Byte) (n : Nat) :
    e.busRead addr n = none ↔ ∃ rest, e.busScript = .silence :: rest := by
  unfold Env.busRead
  split <;> simp_all

/-- One `BusRead`: the event is logged, the environment moves on, nothing else changes. -/
theorem State.busRead_spec {s s' : State} {addr : Byte} {n : Nat} {o : BusOutcome} (h : s.busRead addr n = some (o, s')) :
    ∃ e', s.env.busRead addr n = some (o, e') ∧ s' = (s.setEnv e').log (.busRead addr n o) := by
  unfold State.busRead at h
  split at h
  · cases h
  · rename_i a ha
    cases h
    exact ⟨a.2, ha, rfl⟩

theorem State.busRead_of_env {s : State} {addr : Byte} {n : Nat} {o : BusOutcome} {e' : Env}
    (h : s.env.busRead addr n = some (o, e')) : s.busRead addr n = some (o, (s.setEnv e').log (.busRead addr n o)) := by
  simp [State.busRead, h]

theorem State.busRead_eq_none {s : State} {addr : Byte} {n : Nat} (h : s.env.busRead addr n = none) :
    s.busRead addr n = none := by simp [State.busRead, h]

/-! ### MemoryRegisterChannel -/

/-- The environment after one `MemRead`. -/
def Env.afterMemRead (e : Env) (c : Config) (off : Word) : Env := ((e.interfere c).bankAnswer c off).2

/-- The environment after one `MemWrite`. -/
def Env.afterMemWrite (e : Env) (c : Config) (off v : Word) : Env := (e.interfere c).bankUpdate c [⟨off, v⟩]

theorem State.memRead_eq (s : State) (off : Word) :
    s.memRead off =
      ((s.memRead off).1, (s.setEnv (s.env.afterMemRead s.cfg off)).log (.memRead off (s.memRead off).1)) := rfl

theorem State.memWrite_eq (s : State) (off v : Word) :
    s.memWrite off v = (s.setEnv (s.env.afterMemWrite s.cfg off v)).log (.memWrite off v) := rfl

@[simp] theorem State.memRead_cfg (s : State) (off : Word) : (s.memRead off).2.cfg = s.cfg := rfl
@[simp] theorem State.memRead_block (s : State) (off : Word) : (s.memRead off).2.block = s.block := rfl
@[simp] theorem State.memRead_rsp (s : State) (off : Word) : (s.memRead off).2.rsp = s.rsp := rfl
@[simp] theorem State.memRead_hostCommands (s : State) (off : Word) : (s.memRead off).2.hostCommands = s.hostCommands := rfl
@[simp] theorem State.memRead_env (s : State) (off : Word) :
    (s.memRead off).2.env = s.env.afterMemRead s.cfg off := rfl
@[simp] theorem State.memRead_trace (s : State) (off : Word) :
    (s.memRead off).2.trace = s.trace ++ [.memRead off (s.memRead off).1] := rfl

@[simp] theorem State.memWrite_cfg (s : State) (off v : Word) : (s.memWrite off v).cfg = s.cfg := rfl
@[simp] theorem State.memWrite_block (s : State) (off v : Word) : (s.memWrite off v).block = s.block := rfl
@[simp] theorem State.memWrite_rsp (s : State) (off v : Word) : (s.memWrite off v).rsp = s.rsp := rfl
@[simp] theorem State.memWrite_hostCommands (s : State) (off v : Word) :
    (s.memWrite off v).hostCommands = s.hostCommands := rfl
@[simp] theorem State.memWrite_env (s : State) (off v : Word) :
    (s.memWrite off v).env = s.env.afterMemWrite s.cfg off v := rfl
@[simp] theorem State.memWrite_trace (s : State) (off v : Word) :
    (s.memWrite off v).trace = s.trace ++ [.memWrite off v] := rfl

/-- A bank transaction leaves the sensor's end alone (R2). -/
@[simp] theorem Env.afterMemRead_sensor (e : Env) (c : Config) (off : Word) : (e.afterMemRead c off).sensor = e.sensor := by
  rw [Env.afterMemRead, Env.bankAnswer_spec]; simp

@[simp] theorem Env.afterMemRead_sensorMem (e : Env) (c : Config) (off : Word) :
    (e.afterMemRead c off).sensorMem = e.sensorMem := by
  rw [Env.afterMemRead, Env.bankAnswer_spec]; simp

@[simp] theorem Env.afterMemRead_busScript (e : Env) (c : Config) (off : Word) :
    (e.afterMemRead c off).busScript = e.busScript := by
  rw [Env.afterMemRead, Env.bankAnswer_spec]; simp

@[simp] theorem Env.afterMemRead_bank (e : Env) (c : Config) (off : Word) : (e.afterMemRead c off).bank = e.bank := by
  rw [Env.afterMemRead, Env.bankAnswer_spec]; simp

@[simp] theorem Env.afterMemWrite_sensor (e : Env) (c : Config) (off v : Word) :
    (e.afterMemWrite c off v).sensor = e.sensor := by simp [Env.afterMemWrite]

@[simp] theorem Env.afterMemWrite_sensorMem (e : Env) (c : Config) (off v : Word) :
    (e.afterMemWrite c off v).sensorMem = e.sensorMem := by simp [Env.afterMemWrite]

@[simp] theorem Env.afterMemWrite_busScript (e : Env) (c : Config) (off v : Word) :
    (e.afterMemWrite c off v).busScript = e.busScript := by simp [Env.afterMemWrite]

@[simp] theorem Env.afterMemWrite_bank (e : Env) (c : Config) (off v : Word) :
    (e.afterMemWrite c off v).bank = e.bank := by simp [Env.afterMemWrite]

/-- Bank transactions keep the canonical form. -/
theorem Env.afterMemRead_wf {e : Env} (h : e.bankMem.wf) (c : Config) (off : Word) : (e.afterMemRead c off).bankMem.wf := by
  rw [Env.afterMemRead, Env.bankAnswer_spec]
  exact Env.interfere_wf h c

theorem Env.afterMemWrite_wf {e : Env} (h : e.bankMem.wf) (c : Config) (off v : Word) :
    (e.afterMemWrite c off v).bankMem.wf :=
  Env.bankUpdate_wf (Env.interfere_wf h c) c _

/-- A read of FaithfulBank under exclusive access: the word it keeps, and its bytes unchanged. -/
theorem State.memRead_faithful {s : State} (hb : s.env.bank = .faithful) (hx : s.env.Exclusive) {off w : Word}
    (hg : bankGet s.cfg s.env.bankMem off = some w) :
    (s.memRead off).1 = w ∧ (s.memRead off).2.env = { s.env with others := s.env.others.tail } := by
  have hi := Env.interfere_exclusive hx s.cfg
  have ha : (s.env.interfere s.cfg).bankAnswer s.cfg off = (w, s.env.interfere s.cfg) :=
    Env.bankAnswer_faithful (by rw [hi]; exact hb) (by rw [hi]; exact hg)
  constructor
  · simp [State.memRead, ha]
  · rw [State.memRead_env, Env.afterMemRead, ha, hi]

/-- A write to FaithfulBank under exclusive access. -/
theorem State.memWrite_faithful {s : State} (hb : s.env.bank = .faithful) (hx : s.env.Exclusive) (off v : Word) :
    (s.memWrite off v).env =
      { s.env with others := s.env.others.tail, bankMem := bankPut s.cfg s.env.bankMem ⟨off, v⟩ } := by
  have hi := Env.interfere_exclusive hx s.cfg
  rw [State.memWrite_env, Env.afterMemWrite, Env.bankUpdate_faithful (by rw [hi]; exact hb), hi]
  rfl

end Sys2Proof.Machine
end

