-- ==== Sys2Proof/Laws/PerInstr.lean ====
section
/-! SUPPORT. Laws/PerInstr.lean: a fact about every instruction as syntax, one lemma for each constructor: the four fields
of its command word are the code of its operation, zero, and its two operands (spec/30_encoding.md R61, R63, R64). -/
namespace Sys2Proof.Laws.EncodedFields

/-- The fields of an instruction's word (R61). -/
def Statement (i : Instr) : Prop :=
  opcField (encode i) = i.op.code ∧ rsvField (encode i) = 0#3 ∧ vField (encode i) = i.vBit ∧
    argField (encode i) = i.argBits

theorem all (i : Instr) : Statement i := by simp [Statement, encode]

theorem rdcal : Statement .rdcal := all _
theorem rdraw : Statement .rdraw := all _
theorem cmpt (raw : Count) : Statement (.cmpt raw) := all _
theorem cmpp (raw : Count) : Statement (.cmpp raw) := all _
theorem gset (pin : Nat) (value : Bool) : Statement (.gset pin value) := all _
theorem gget (pin : Nat) : Statement (.gget pin) := all _
theorem gdin (pin : Nat) : Statement (.gdin pin) := all _
theorem gdout (pin : Nat) (value : Bool) : Statement (.gdout pin value) := all _

end Sys2Proof.Laws.EncodedFields
end

