-- ==== Sys2Proof/Tests/Slice0.lean ====
section
/-! SUPPORT. Slice0.lean: the model's own tests. Expected values come from spec/95_test_vectors.md and the examples of the
rules, never from the model; each test names its vector. The second part shows, for every statement that has hypotheses, a
state and operands that meet them. -/
namespace Sys2Proof.Machine.Tests

/-! ### Helpers -/

/-- The state a step or an instruction leads to, if it leads to one. -/
def after : Host.Outcome State Fault Refusal → Option State
  | .next t => some t
  | .fault _ => none
  | .refused _ => none

/-- The response after a step or an instruction. -/
def rspOf (o : Host.Outcome State Fault Refusal) : Option Response := (after o).bind (·.rsp)

/-- The block after a step or an instruction. -/
def blockOf (o : Host.Outcome State Fault Refusal) : Option Block := (after o).map (·.block)

/-- What a step or an instruction added to an empty trace. -/
def traceOf (o : Host.Outcome State Fault Refusal) : Option (List Event) := (after o).map (·.trace)

/-- One word of the bank after a step or an instruction. -/
def wordOf (a : Nat) (o : Host.Outcome State Fault Refusal) : Option Word := (after o).map (·.env.bankMem.load32 a)

/-- The 24 bytes of vector PC1 (R81's example). -/
def pc1 : List Byte :=
  [0x70, 0x6B, 0x43, 0x67, 0x18, 0xFC, 0x7D, 0x8E, 0x43, 0xD6, 0xD0, 0x0B, 0x27, 0x0B, 0x8C, 0x00, 0xF9, 0xFF, 0x8C, 0x3C,
    0xF8, 0xC6, 0x70, 0x17]

/-- The constants of the document's section 8, as vector PC1 lists them. -/
def calS8 : CalSet where
  digT1 := 27504
  digT2 := 26435
  digT3 := -1000
  digP1 := 36477
  digP2 := -10685
  digP3 := 3024
  digP4 := 2855
  digP5 := 140
  digP6 := -7
  digP7 := 15500
  digP8 := -14600
  digP9 := 6000

/-- A calibrated block with these constants. -/
def calibrated (cal : CalSet) (tFine : Word) (tseq : Tseq) : State :=
  State.reset.setBlock ⟨cal, true, tFine, tseq⟩

/-- Reset, with the next answers of the register channel scripted. -/
def scripted (script : List ScriptEntry) : State := State.reset.setEnv { Env.reset with busScript := script }

/-- Reset beside FaithfulBank with these bytes. -/
def faithful (m : Memory) : State := State.reset.setEnv { Env.reset with bank := .faithful, bankMem := m }

/-- The six function-select words all ones, as vectors GV12 to GV15 have them. -/
def allOnes : Memory := (List.range 24).map fun a => (a, 0xFF#8)

/-! ### Decoding (95 2.1) and well-formedness -/

theorem test_decode_rdcal : decode 0b00000001000000000000000000000000#32 = .legal .rdcal := by decide
theorem test_decode_rdraw : decode 0b00000010000000000000000000000000#32 = .legal .rdraw := by decide
theorem test_decode_cmpt : decode 0b00000011000001111110111011010000#32 = .legal (.cmpt 0x7EED0#20) := by decide
theorem test_decode_cmpp : decode 0b00000100000001100101010110101100#32 = .legal (.cmpp 0x655AC#20) := by decide
theorem test_decode_gset : decode 0b00010000000100000000000000010001#32 = .legal (.gset 17 true) := by decide
theorem test_decode_gget : decode 0b00010001000000000000000000110101#32 = .legal (.gget 53) := by decide
theorem test_decode_gdin : decode 0b00010010000000000000000000001001#32 = .legal (.gdin 9) := by decide
theorem test_decode_gdout : decode 0b00010011000100000000000000110101#32 = .legal (.gdout 53 true) := by decide

/-- The illegal rows of the same table, one for each reason. -/
theorem test_decode_illegal :
    decode 0x00000000#32 = .illegal .unassignedOpcode ∧ decode 0x02000100#32 = .illegal .operandBits ∧
      decode 0x0327EED0#32 = .illegal .reservedBits ∧ decode 0x12100005#32 = .illegal .operandBits := by decide

theorem test_decodeTableWord : decodeTableWord 32 0x1310FFFF = some (.gdout 65535 true) ∧
    decodeTableWord 32 0x14000000 = none := by decide

/-- The largest pin index with an encoding is accepted, the next one refused, in every form that has a pin (R64). -/
theorem test_wellFormed_pins :
    ([Instr.gset 1048575 true, .gget 1048575, .gdin 1048575, .gdout 1048575 false].all (·.wellFormed)) = true ∧
      (Instr.gset 1048576 true).wellFormed = false ∧ (Instr.gget 1048576).wellFormed = false ∧
      (Instr.gdin 1048576).wellFormed = false ∧ (Instr.gdout 1048576 false).wellFormed = false := by decide

/-- Lines of R67's syntax with the words of programs P2 and P3. -/
theorem test_assemble :
    assembleLine "GDOUT 17, 1      ; 0x1310_0011".toList = .word 0x13100011#32 ∧
      assembleLine "GGET 0xFFFFF".toList = .word 0x110FFFFF#32 ∧
      assembleLine "; a comment".toList = .nothing ∧ assembleLine "GSET 17, 2".toList = .rejected := by decide

/-! ### One step of each command -/

/-- RC4 with PC1: all twelve constants, and the flag. -/
theorem test_rdcal_ok : blockOf (exec .rdcal (scripted [.answer (.delivered pc1)])) = some ⟨calS8, true, 0, .unset⟩ := by
  decide

/-- RC3: 23 bytes are a failure, and the block keeps what it held. -/
theorem test_rdcal_short :
    blockOf (exec .rdcal (scripted [.answer (.delivered (pc1.take 23))])) = some Block.reset ∧
      rspOf (exec .rdcal (scripted [.answer (.delivered (pc1.take 23))])) = some ⟨.ioError, 0, 0⟩ := by decide

/-- AR5: which bytes feed which count. -/
theorem test_rdraw_ok :
    rspOf (exec .rdraw (scripted [.answer (.delivered [0x12, 0x34, 0x56, 0x78, 0x9A, 0xBC])])) =
      some ⟨.ok, 0x000789AB, 0x00012345⟩ := by decide

/-- P3, command 3 for RDRAW: a failed read. -/
theorem test_rdraw_fail : rspOf (exec .rdraw (scripted [.answer .failed])) = some ⟨.ioError, 0, 0⟩ := by decide

/-- CT1: 2508, not the document's 5123 (C1), and `t_fine` 128422. -/
theorem test_cmpt_ct1 :
    rspOf (exec (.cmpt 519888) (calibrated calS8 0 .unset)) = some ⟨.ok, 0x000009CC, 0⟩ ∧
      blockOf (exec (.cmpt 519888) (calibrated calS8 0 .unset)) = some ⟨calS8, true, 128422, .fresh⟩ := by decide

/-- CT8: an arithmetic shift rounds -1 down to -1. -/
theorem test_cmpt_ct8 :
    (blockOf (exec (.cmpt 8) (calibrated { calS8 with digT1 := 0, digT2 := -1, digT3 := 0 } 0 .unset))).map (·.tFine) =
      some 0xFFFFFFFF := by decide

/-- SQ6: the same pressure again, flagged stale; branch A. -/
theorem test_cmpp_sq6 :
    rspOf (exec (.cmpp 415148) (calibrated calS8 128422 .consumed)) = some ⟨.ok, 0x00018930, 1⟩ := by decide

/-- CP4: a dividend that wraps below zero; branch B. -/
theorem test_cmpp_cp4 :
    rspOf (exec (.cmpp 0xFFFFF) (calibrated calS8 128422 .fresh)) = some ⟨.ok, 0x000387D3, 0⟩ ∧
      (blockOf (exec (.cmpp 0xFFFFF) (calibrated calS8 128422 .fresh))).map (·.tseq) = some .consumed := by decide

/-- GV3: pin 32 is bit 0 of word 1. -/
theorem test_gset_gv3 :
    traceOf (exec (.gset 32 true) (faithful [])) = some [.memWrite 0x20 0x00000001, .response ⟨.ok, 0, 0⟩] ∧
      wordOf 0x38 (exec (.gset 32 true) (faithful [])) = some 0x00000001 := by decide

/-- GV6: a clear write, and the other bits of the level word as they were. -/
theorem test_gset_gv6 :
    wordOf 0x38 (exec (.gset 53 false) (faithful [(0x38, 0xFF), (0x39, 0xFF), (0x3A, 0x3F)])) = some 0x001FFFFF := by
  decide

/-- GV11: bit 21 of level word 1. -/
theorem test_gget_gv11 :
    traceOf (exec (.gget 53) (faithful [(0x3A, 0x20)])) =
      some [.memRead 0x38 0x00200000, .response ⟨.ok, 1, 0⟩] := by decide

/-- GV23: pin 64 reads nothing. -/
theorem test_gget_gv23 : traceOf (exec (.gget 64) (faithful [])) = some [.response ⟨.invalidPin, 0, 0⟩] := by decide

/-- GV13: pin 9's field is bits 29:27; bits 31:30 and the next word stay. -/
theorem test_gdin_gv13 :
    wordOf 0 (exec (.gdin 9) (faithful allOnes)) = some 0xC7FFFFFF ∧
      wordOf 4 (exec (.gdin 9) (faithful allOnes)) = some 0xFFFFFFFF := by decide

/-- GV16: an unchanged word is written back all the same. -/
theorem test_gdin_gv16 :
    traceOf (exec (.gdin 25) (faithful [])) = some [.memRead 8 0, .memWrite 8 0, .response ⟨.ok, 0, 0⟩] := by decide

/-- P2, command 1: direction first, level second. -/
theorem test_gdout_p2 :
    traceOf (exec (.gdout 17 true) (faithful [(4, 0xFF), (5, 0xFF), (6, 0xFF), (7, 0x3F)])) =
      some [.memRead 4 0x3FFFFFFF, .memWrite 4 0x3F3FFFFF, .memWrite 0x1C 0x00020000, .response ⟨.ok, 0, 0⟩] := by decide

/-- GV20: a field of `100` becomes `001`, and the level bit is cleared. -/
theorem test_gdout_gv20 :
    wordOf 0x14 (exec (.gdout 53 false) (faithful [(0x15, 0x08), (0x3A, 0x20)])) = some 0x00000200 ∧
      wordOf 0x38 (exec (.gdout 53 false) (faithful [(0x15, 0x08), (0x3A, 0x20)])) = some 0 := by decide

/-- EP1, EP3, EP6 and SQ3: the first error that applies is the one reported. -/
theorem test_error_priority :
    rspOf (step (State.reset.withFetchWord 32 0x040655AC)) = some ⟨.notCalibrated, 0, 0⟩ ∧
      rspOf (step (State.reset.withFetchWord 32 0x11200040)) = some ⟨.illegalCommand, 0, 0⟩ ∧
      traceOf (step ((scripted [.answer .failed]).withFetchWord 32 0x01000001)) =
        some [.command 0x01000001, .response ⟨.illegalCommand, 0, 0⟩] ∧
      rspOf (step ((calibrated calS8 0 .unset).withFetchWord 32 0x040655AC)) = some ⟨.tFineUnset, 0, 0⟩ := by decide

/-- The bare division vectors of 95 2.5. -/
theorem test_divide :
    pressDivide 3 2 = 3 ∧ pressDivide 7 4 = 3 ∧ pressDivide 0x7FFFFFFF 1 = 0xFFFFFFFE ∧ pressDivide 0x80000000 1 = 0 ∧
      pressDivide 0x80000000 3 = 1431655764 ∧ pressDivide 0xFFFFFFFF 2 = 4294967294 := by decide

/-- Rows 9, 31, 32 and 53 of R140. -/
theorem test_pin_decoder :
    (fselAddr Config.default 9, fselShift 9, mask3 9, mask1 9) = (0x00, 27, 0x38000000, 0x00000200) ∧
      (fselAddr Config.default 31, mask3 31, setAddr Config.default 31, mask1 31) = (0x0C, 0x00000038, 0x1C, 0x80000000) ∧
      (fselAddr Config.default 32, mask3 32, clrAddr Config.default 32, mask1 32) = (0x0C, 0x000001C0, 0x2C, 0x00000001) ∧
      (fselAddr Config.default 53, mask3 53, levAddr Config.default 53, mask1 53) = (0x14, 0x00000E00, 0x38, 0x00200000) := by
  decide

/-! ### Witnesses: the hypotheses of each statement can be met

Named after the statement. Where a statement has clauses over ranges, the witness stands at the ends of the ranges. -/

theorem witness_ResetLeavesBlockEmptyAndReady : decode 0x01000000#32 = .legal .rdcal := by decide

theorem witness_IdleBlockDoesNotMove : State.reset.hostCommands = [] := by decide

theorem witness_StepRunsTheDecodedCommand :
    (State.reset.present 0x131FFFFF#32).hostCommands = 0x131FFFFF#32 :: [] ∧
      decode 0x131FFFFF#32 = .legal (.gdout 1048575 true) := by decide

/-- The first clause on the all-zero word, then a word of each other clause. -/
theorem witness_WordsOutsideTheTableAreIllegal :
    (State.reset.present 0#32).hostCommands = 0#32 :: [] ∧ (∀ o : Op, o.selects 0#32 = false) ∧
      (∀ o : Op, opcField 0x14000000#32 ≠ o.code) ∧ rsvField 0x10E00011#32 ≠ 0#3 ∧
      (opcField 0x01100000#32 = 0x01#8 ∧ vField 0x01100000#32 = 1#1) ∧
      (opcField 0x02000100#32 = 0x02#8 ∧ argField 0x02000100#32 ≠ 0#20) ∧
      (opcField 0x12100005#32 = 0x12#8 ∧ vField 0x12100005#32 = 1#1) := by
  refine ⟨by decide, fun o => by cases o <;> decide, fun o => by cases o <;> decide, ?_⟩
  decide

theorem witness_MatchMaskTableSelectsTheCommand :
    decode 0x0307EED0#32 = .legal (.cmpt 519888) ∧ 0x0307EED0#32 &&& Op.cmpt.variant.mask = Op.cmpt.pattern := by decide

theorem witness_DecodeOfEncodeIsTheInstruction :
    (Instr.gdout 1048575 true).wellFormed = true ∧ (Instr.cmpt 0xFFFFF#20).wellFormed = true := by decide

theorem witness_EncodeOfDecodeIsTheWord : decode 0x13000000#32 = .legal (.gdout 0 false) := by decide

theorem witness_AssemblerGivesTheEncodedWord :
    (0xFFFFF : Nat) ≤ 0xFFFFF ∧ (0x100000 : Nat) > 0xFFFFF ∧ (2 : Nat) > 1 := by decide

theorem witness_ArithmeticPrimitivesAreExact : (31 : Nat) ≤ 31 ∧ (1#32).toNat ≠ 0 := by decide

theorem witness_ParseCalIsLittleEndian : pc1.length = 24 := by decide

theorem witness_AsmRawTakesTheTopTwentyBits : ([0x65, 0x5A, 0xC0, 0x7E, 0xED, 0x00] : List Byte).length = 6 := by decide

theorem witness_RdcalLoadsAllConstants :
    (scripted [.answer (.delivered pc1)]).env.busRead (scripted [.answer (.delivered pc1)]).cfg.calibBase 24 =
      some (.ok pc1, Env.reset) := by decide

theorem witness_FailedRdcalLeavesNoTrace :
    (scripted [.answer (.delivered (pc1.take 23))]).env.busRead Config.default.calibBase 24 =
        some (.short 23, Env.reset) ∧
      (scripted [.answer .failed]).env.busRead Config.default.calibBase 24 = some (.fail, Env.reset) ∧
      (∀ b, BusOutcome.short 23 ≠ .ok b) ∧ ∀ b, BusOutcome.fail ≠ .ok b :=
  ⟨by decide, by decide, fun _ => by simp, fun _ => by simp⟩

/-- Two RDCAL commands that read the same 24 bytes. -/
theorem witness_RepeatedRdcalIsIdempotent :
    ∃ s t u : State, ∃ e e' : Env, s.env.busRead s.cfg.calibBase 24 = some (.ok pc1, e) ∧ exec .rdcal s = .next t ∧
      t.env.busRead t.cfg.calibBase 24 = some (.ok pc1, e') ∧ exec .rdcal t = .next u :=
  ⟨scripted [.answer (.delivered pc1), .answer (.delivered pc1)], _, _, _, _, rfl, rfl, rfl, rfl⟩

theorem witness_RdrawReturnsTheSample :
    (scripted [.answer (.delivered [1, 2, 3, 4, 5, 6])]).env.busRead Config.default.dataBase 6 =
      some (.ok [1, 2, 3, 4, 5, 6], Env.reset) := by decide

theorem witness_RdrawChangesNoBlockState :
    (∃ t, exec .rdraw (scripted [.answer .failed]) = .next t) ∧
      (scripted [.answer .failed]).env.busRead Config.default.dataBase 6 = some (.fail, Env.reset) ∧
      (scripted [.answer (.delivered [])]).env.busRead Config.default.dataBase 6 = some (.short 0, Env.reset) :=
  ⟨⟨_, rfl⟩, by decide, by decide⟩

/-- Both sides of the two equivalences: a silent channel, and one that answers. -/
theorem witness_SilentChannelLeavesTheCommandStuck :
    (scripted [.silence]).env.busScript = .silence :: [] ∧
      exec .rdcal (scripted [.silence]) = .fault .channelNeverAnswers ∧
      exec .rdraw (scripted [.silence]) = .fault .channelNeverAnswers ∧
      ¬(∃ rest, State.reset.env.busScript = .silence :: rest) :=
  ⟨rfl, rfl, rfl, fun ⟨_, h⟩ => nomatch h⟩

/-- One environment for each clause: an answer, exactly enough bytes, too few, a failure, StaticSensor. -/
theorem witness_BusReadHasThreeOutcomes :
    (∃ o e', Env.reset.busRead 0 6 = some (o, e')) ∧
      (scripted [.answer (.delivered [1, 2])]).env.busScript = .answer (.delivered [1, 2]) :: [] ∧
      ([1, 2] : List Byte).length = 2 ∧ ([1, 2] : List Byte).length < 3 ∧
      (scripted [.answer .failed]).env.busScript = .answer .failed :: [] ∧
      ({ Env.reset with sensor := .static } : Env).busScript = [] ∧
      ({ Env.reset with sensor := .static } : Env).sensor = .static :=
  ⟨⟨_, _, rfl⟩, rfl, rfl, by decide, rfl, rfl, rfl⟩

theorem witness_CmptStoresTFineAndAnswersT : (calibrated calS8 0 .unset).block.calValid = true := by decide

theorem witness_CompensationNeedsCalibration : State.reset.block.calValid = false := by decide

theorem witness_CmppNeedsATFine :
    (calibrated calS8 0 .unset).block.calValid = true ∧ (calibrated calS8 0 .unset).block.tseq = .unset ∧
      (calibrated calS8 0 .consumed).block.tseq = .consumed := by decide

theorem witness_CmppAnswersPressureAndConsumes :
    (calibrated calS8 128422 .fresh).block.calValid = true ∧ (calibrated calS8 128422 .fresh).block.tseq ≠ .unset ∧
      (calibrated calS8 128422 .consumed).block.tseq ≠ .unset := by decide

/-- CP2 makes the divisor zero; CP7 makes it negative. -/
theorem witness_ZeroDivisorAnswersZero :
    pressV1c (pressParams { calS8 with digP1 := 0 }) 128422 = 0#32 ∧
      (calibrated { calS8 with digP1 := 0 } 128422 .fresh).block.tseq ≠ .unset ∧
      (pressV1c (pressParams { calS8 with digP1 := -1, digP2 := -32768, digP3 := -32768 }) 0x7FFFFFFF).toInt = -56468 := by
  decide

/-- The last dividend below the threshold, the first one at it, and the divisor that wraps the doubling. -/
theorem witness_DivisionBranchesAtTheThreshold :
    1#32 ≠ 0#32 ∧ (0x7FFFFFFF#32).toNat < 2 ^ 31 ∧ 2 ^ 31 ≤ (0x80000000#32).toNat ∧
      2 * ((0x80000000#32).toNat / (1#32).toNat) ≥ 2 ^ 32 := by decide

/-- A step for each clause: a CMPT, a CMPP in each phase, an error, another command. -/
theorem witness_SequencerTransitions :
    (∃ t, step ((calibrated calS8 0 .unset).present 0x0307EED0) = .next t ∧ t.rsp.map (·.status) = some .ok) ∧
      (∃ t, step ((calibrated calS8 0 .unset).present 0x040655AC) = .next t ∧ t.rsp.map (·.status) = some .tFineUnset) ∧
      (∃ t, step ((calibrated calS8 0 .fresh).present 0x040655AC) = .next t ∧ t.rsp.map (·.d1) = some 0) ∧
      (∃ t, step ((calibrated calS8 0 .consumed).present 0x040655AC) = .next t ∧ t.rsp.map (·.d1) = some 1) ∧
      ∃ t, step ((calibrated calS8 0 .fresh).present 0x10100005) = .next t ∧ t.rsp.map (·.status) = some .ok :=
  ⟨⟨_, rfl, rfl⟩, ⟨_, rfl, rfl⟩, ⟨_, rfl, rfl⟩, ⟨_, rfl, rfl⟩, ⟨_, rfl, rfl⟩⟩

theorem witness_OnlySuccessfulRdcalWritesCal :
    ∃ t, step ((scripted [.answer (.delivered pc1)]).present 0x01000000) = .next t ∧ t.block.calValid = true :=
  ⟨_, rfl, rfl⟩

/-- A CMPT that writes `T_FINE`, and steps that do not: a CMPT turned away, and another command. -/
theorem witness_OnlySuccessfulCmptWritesTFine :
    (∃ t, step ((calibrated calS8 0 .unset).present 0x0307EED0) = .next t) ∧
      decode 0x0307EED0#32 = .legal (.cmpt 519888) ∧
      (∃ t, step (State.reset.present 0x0307EED0) = .next t) ∧ State.reset.block.calValid = false ∧
      decode 0x10100005#32 = .legal (.gset 5 true) :=
  ⟨⟨_, rfl⟩, by decide, ⟨_, rfl⟩, rfl, by decide⟩

theorem witness_FreshBlockCompensatesReproducibly :
    (scripted [.answer (.delivered pc1)]).block = Block.reset ∧
      (scripted [.answer (.delivered pc1)]).env.busRead Config.default.calibBase 24 = some (.ok pc1, Env.reset) := by
  decide

/-- The default parameters meet the constraints of R8. -/
theorem default_ok : Config.default.Ok := by constructor <;> decide

theorem witness_PinDecoderFormulas : Config.default.Ok ∧ 0 < 54 ∧ 53 < 54 := ⟨default_ok, by decide, by decide⟩

theorem witness_MasksAndFieldInsertion : (31 : Nat) < 32 ∧ ¬(53 % 10 * 3 ≤ 31 ∧ 31 < 53 % 10 * 3 + 3) := by decide

theorem witness_InvalidPinStopsEveryGpioCommand : (54 : Nat) ≤ 54 ∧ (54 : Nat) ≤ 1048576 := by decide

/-- The index -1, the index 2^32 and the largest valid one, each with its command presented. -/
theorem witness_OverflowedIndicesEndInvalidPin :
    (State.reset.present (encode (.gget (hostPin (-1))))).hostCommands = encode (.gget (hostPin (-1))) :: [] ∧
      ¬((0 : Int) ≤ -1 ∧ (-1 : Int) < 54) ∧ ¬((0 : Int) ≤ 4294967296 ∧ (4294967296 : Int) < 54) ∧
      ((0 : Int) ≤ 53 ∧ (53 : Int) < 54) := by decide

theorem witness_GsetWritesOneMask : (0 : Nat) < 54 ∧ (53 : Nat) < 54 := by decide

/-- FaithfulBank with nobody else writing it; the word lists of the vectors, and one with an empty list pending. -/
theorem faithful_exclusive (m : Memory) (h : m.wf) (n : Nat) :
    FaithfulExclusive ((faithful m).setEnv { (faithful m).env with others := List.replicate n [] }) :=
  ⟨default_ok, rfl, h, fun _ hw => List.eq_of_mem_replicate hw⟩

/-- An oracle bank with a scripted word, and FaithfulBank; pins 0 and 53. -/
theorem witness_GgetReadsOneLevelBit :
    (0 : Nat) < 54 ∧ (53 : Nat) < 54 ∧
      (State.reset.setEnv { Env.reset with memScript := [0x00200000] }).env.bank = .oracle ∧
      FaithfulExclusive ((faithful allOnes).setEnv { (faithful allOnes).env with others := List.replicate 2 [] }) :=
  ⟨by decide, by decide, rfl, faithful_exclusive allOnes (by decide) 2⟩

theorem witness_GdinClearsTheField :
    (53 : Nat) < 54 ∧ (State.reset.setEnv { Env.reset with memScript := [0xFFFFFFFF] }).env.memScript = 0xFFFFFFFF :: [] ∧
      FaithfulExclusive ((faithful allOnes).setEnv { (faithful allOnes).env with others := List.replicate 0 [] }) :=
  ⟨by decide, rfl, faithful_exclusive allOnes (by decide) 0⟩

theorem witness_GdoutSetsDirectionThenLevel :
    (53 : Nat) < 54 ∧ (State.reset.setEnv { Env.reset with memScript := [0xFFFFFFFF] }).env.memScript = 0xFFFFFFFF :: [] ∧
      FaithfulExclusive ((faithful allOnes).setEnv { (faithful allOnes).env with others := List.replicate 3 [] }) :=
  ⟨by decide, rfl, faithful_exclusive allOnes (by decide) 3⟩

/-- The four commands run from such a state. -/
theorem witness_FaithfulBankByteFrames :
    (∃ s, FaithfulExclusive s ∧ (∃ t, exec (.gset 53 true) s = .next t) ∧ (∃ t, exec (.gget 53) s = .next t) ∧
      (∃ t, exec (.gdin 0) s = .next t) ∧ ∃ t, exec (.gdout 0 false) s = .next t) :=
  ⟨_, faithful_exclusive allOnes (by decide) 3, ⟨_, rfl⟩, ⟨_, rfl⟩, ⟨_, rfl⟩, _, rfl⟩

theorem witness_LevelRoundTrip : ∃ s, FaithfulExclusive s ∧ (53 : Nat) < 54 :=
  ⟨_, faithful_exclusive [] (by decide) 0, by decide⟩

/-- Pins 9 and 10, at the boundary between two words; and pin 53, the last one. -/
theorem witness_DirectionFieldIsolation :
    ∃ s t, FaithfulExclusive s ∧ (9 : Nat) < 54 ∧ (10 : Nat) < 54 ∧ (53 : Nat) < 54 ∧ (10 : Nat) ≠ 9 ∧
      exec (.gdout 9 true) s = .next t :=
  ⟨_, _, faithful_exclusive allOnes (by decide) 0, by decide, by decide, by decide, by decide, rfl⟩

theorem witness_GdoutThenGdinLeavesAnInput : ∃ s, FaithfulExclusive s ∧ (53 : Nat) < 54 :=
  ⟨_, faithful_exclusive allOnes (by decide) 5, by decide⟩

/-- Another agent makes pin 53 an output between the read and the write of a GDIN on it. -/
theorem witness_ReadModifyWriteLosesTheOtherUpdate :
    let s := (faithful []).setEnv { (faithful []).env with others := [[], [⟨fselAddr Config.default 53, 0x200⟩]] }
    s.cfg.Ok ∧ s.env.bank = .faithful ∧ s.env.bankMem.wf ∧ (53 : Nat) < 54 ∧
      s.env.others = [] :: [⟨fselAddr s.cfg 53, 0x200⟩] :: [] :=
  ⟨default_ok, rfl, by decide, by decide, rfl⟩

/-- A sensor command and a GPIO command run from reset. -/
theorem witness_UnitsShareNothing :
    (∃ t, exec .rdcal State.reset = .next t) ∧ ∃ t, exec (.gdout 53 true) State.reset = .next t := ⟨⟨_, rfl⟩, _, rfl⟩

theorem witness_EveryCommandEndsWithOneResponse :
    (State.reset.present 0x13100011).hostCommands = 0x13100011 :: [] ∧
      ∃ t, step (State.reset.present 0x13100011) = .next t := ⟨rfl, _, rfl⟩

theorem witness_StatusesOfEachCommand : ∃ t, exec (.cmpp 0) State.reset = .next t := ⟨_, rfl⟩

/-- One error without a transaction, one with. -/
theorem witness_ErrorsLeaveTheBlockUntouched :
    (∃ t r, step (State.reset.present 0) = .next t ∧ t.rsp = some r ∧ r.status = .illegalCommand) ∧
      ∃ t r, step ((scripted [.answer .failed]).present 0x02000000) = .next t ∧ t.rsp = some r ∧ r.status = .ioError :=
  ⟨⟨_, _, rfl, rfl, rfl⟩, _, _, rfl, rfl, rfl⟩

theorem witness_TransactionsStayWithinReach :
    State.reset.cfg.Ok ∧ (∃ t, exec .rdraw State.reset = .next t) ∧ ∃ t, exec (.gdout 53 true) State.reset = .next t :=
  ⟨default_ok, ⟨_, rfl⟩, _, rfl⟩

theorem witness_ConfigurationIsNeverWritten : ∃ t, step (State.reset.present 0x01000000) = .next t := ⟨_, rfl⟩

/-- Both clauses: a sample that arrives, and one that does not. -/
theorem witness_MeasureCompensatesOneSample :
    (∃ s : State, ∃ e, s.block.calValid = true ∧
      s.env.busRead s.cfg.dataBase 6 = some (.ok [0x65, 0x5A, 0xC0, 0x7E, 0xED, 0x00], e)) ∧
      (scripted [.answer .failed]).env.busRead Config.default.dataBase 6 = some (.fail, Env.reset) :=
  ⟨⟨(calibrated calS8 0 .unset).setEnv
      { Env.reset with busScript := [.answer (.delivered [0x65, 0x5A, 0xC0, 0x7E, 0xED, 0x00])] },
    _, rfl, rfl⟩, by decide⟩

/-- A state after a CMPT meets the invariant, and a step leads on from it. -/
theorem witness_EveryStepKeepsTheInvariant :
    ((calibrated calS8 128422 .fresh).present 0x040655AC).Inv ∧
      ∃ t, step ((calibrated calS8 128422 .fresh).present 0x040655AC) = .next t :=
  ⟨⟨default_ok, ⟨fun _ => rfl, fun _ => by decide, fun _ => by decide⟩, by decide, fun _ h => nomatch h⟩, _, rfl⟩

/-- Two states that differ in `CAL` and `T_FINE` while neither has a value, with a step and with a stop. -/
theorem witness_UnspecifiedContentsNeverShow :
    State.Agree (State.reset.present 0x0307EED0) ((State.reset.setBlock ⟨calS8, false, 7, .unset⟩).present 0x0307EED0) ∧
      (∃ t, step (State.reset.present 0x0307EED0) = .next t) ∧
      step ((scripted [.silence]).present 0x01000000) = .fault .channelNeverAnswers :=
  ⟨⟨rfl, ⟨rfl, rfl, fun h => absurd h (by decide), fun h => absurd rfl h⟩, rfl, rfl, rfl, rfl⟩, ⟨_, rfl⟩, rfl⟩

/-- A step of each kind: an illegal command, a CMPT and a CMPP turned away, a command that is `OK`, one that fails with a
status that is no run fault, no command; and a run that holds a fault already, with a further step. -/
theorem witness_RunFaultIsSticky :
    (∃ t, step (State.reset.present 0) = .next t ∧ t.rsp.map (·.status) = some .illegalCommand) ∧
      (∃ t, step (State.reset.present 0x0307EED0) = .next t ∧ t.rsp.map (·.status) = some .notCalibrated) ∧
      (∃ t, step ((calibrated calS8 0 .unset).present 0x040655AC) = .next t ∧ t.rsp.map (·.status) = some .tFineUnset) ∧
      (∃ t, step (State.reset.present 0x10100005) = .next t ∧ t.rsp.map (·.status) = some .ok) ∧
      (∃ t, step (State.reset.present 0x10100036) = .next t ∧ t.rsp.map (·.status) = some .invalidPin) ∧
      (∃ t, step ((scripted [.answer .failed]).present 0x01000000) = .next t ∧ t.rsp.map (·.status) = some .ioError) ∧
      (State.reset.hostCommands = [] ∧ ∃ t, step State.reset = .next t) ∧
      ((State.reset.log (.response ⟨.illegalCommand, 0, 0⟩)).present 0x10100005).runFault = true ∧
      ∃ t, step ((State.reset.log (.response ⟨.illegalCommand, 0, 0⟩)).present 0x10100005) = .next t :=
  ⟨⟨_, rfl, rfl⟩, ⟨_, rfl, rfl⟩, ⟨_, rfl, rfl⟩, ⟨_, rfl, rfl⟩, ⟨_, rfl, rfl⟩, ⟨_, rfl, rfl⟩, ⟨rfl, _, rfl⟩, by decide, _, rfl⟩

end Sys2Proof.Machine.Tests
end

section
/-! What each 32-bit primitive of R10 computes, against exact integers. -/
namespace Sys2Proof.Machine

theorem toNat_add32 (a b : Word) : (add32 a b).toNat = (a.toNat + b.toNat) % 2 ^ 32 := BitVec.toNat_add a b

theorem toInt_add32 (a b : Word) : (add32 a b).toInt = (a.toInt + b.toInt).bmod (2 ^ 32) := BitVec.toInt_add a b

theorem toNat_sub32 (a b : Word) : ((sub32 a b).toNat : Int) = ((a.toNat : Int) - b.toNat) % 2 ^ 32 := by
  rw [sub32, BitVec.toNat_sub]
  omega

theorem toNat_mul32 (a b : Word) : (mul32 a b).toNat = a.toNat * b.toNat % 2 ^ 32 := BitVec.toNat_mul a b

/-- A product does not depend on whether its factors are read signed or unsigned. -/
theorem toNat_mul32_signed (a b : Word) : ((mul32 a b).toNat : Int) = a.toInt * b.toInt % 2 ^ 32 := by
  have h : mul32 a b = BitVec.ofInt 32 (a.toInt * b.toInt) := by
    rw [BitVec.ofInt_mul, BitVec.ofInt_toInt, BitVec.ofInt_toInt, mul32]
  rw [h, BitVec.toNat_ofInt, Int.toNat_of_nonneg (Int.emod_nonneg _ (by decide))]
  rfl

theorem toInt_asr32 (a : Word) (n : Nat) : (asr32 a n).toInt = a.toInt / 2 ^ n := by
  rw [asr32, BitVec.toInt_sshiftRight, Int.shiftRight_eq_div_pow]
  norm_cast

theorem toNat_lsr32 (a : Word) (n : Nat) : (lsr32 a n).toNat = a.toNat / 2 ^ n := by
  rw [lsr32, BitVec.toNat_ushiftRight, Nat.shiftRight_eq_div_pow]

theorem toNat_shl32 (a : Word) (n : Nat) : (shl32 a n).toNat = a.toNat * 2 ^ n % 2 ^ 32 := by
  rw [shl32, BitVec.toNat_shiftLeft, Nat.shiftLeft_eq]

theorem toNat_udiv32 (a b : Word) : (udiv32 a b).toNat = a.toNat / b.toNat := BitVec.toNat_udiv

theorem ult32_iff (a b : Word) : ult32 a b = true ↔ a.toNat < b.toNat := BitVec.ult_iff_toNat_lt

/-- Settles O10: the premises `n ≤ 31` and `b ≠ 0` of R10 are not needed for the model's primitives. -/
theorem arithmeticPrimitivesAreExact : Obligations.ArithmeticPrimitivesAreExact :=
  ⟨toNat_add32, toNat_sub32, fun a b => ⟨toNat_mul32 a b, toNat_mul32_signed a b⟩, fun a n _ => toInt_asr32 a n,
    fun a n _ => toNat_lsr32 a n, fun a n _ => toNat_shl32 a n, fun a b _ => toNat_udiv32 a b, ult32_iff⟩

end Sys2Proof.Machine
end

section
/-! The range of a computed `T_FINE` (R105). -/
namespace Sys2Proof.Machine

/-- A word shifted right arithmetically by `n` lies in the signed range divided by `2 ^ n`. -/
theorem asr32_range (a : Word) (n : Nat) :
    -2 ^ 31 / 2 ^ n ≤ (asr32 a n).toInt ∧ (asr32 a n).toInt ≤ (2 ^ 31 - 1) / 2 ^ n := by
  have hlow : -2 ^ 31 ≤ a.toInt := BitVec.le_toInt a
  have hhigh : a.toInt < 2 ^ 31 := BitVec.toInt_lt
  rw [toInt_asr32]
  exact ⟨Int.ediv_le_ediv (by positivity) hlow, Int.ediv_le_ediv (by positivity) (by omega)⟩

theorem tempVar1_range (t1 t2 adcT : Word) :
    -1048576 ≤ (tempVar1 t1 t2 adcT).toInt ∧ (tempVar1 t1 t2 adcT).toInt ≤ 1048575 :=
  asr32_range _ 11

theorem tempVar2_range (t1 t3 adcT : Word) :
    -131072 ≤ (tempVar2 t1 t3 adcT).toInt ∧ (tempVar2 t1 t3 adcT).toInt ≤ 131071 :=
  asr32_range _ 14

/-- The last sum of R103 never wraps, because its two terms are shifted values (R105). -/
theorem tempComp_tFine_toInt (t1 t2 t3 adcT : Word) :
    (tempComp t1 t2 t3 adcT).tFine.toInt = (tempVar1 t1 t2 adcT).toInt + (tempVar2 t1 t3 adcT).toInt := by
  have h1 := tempVar1_range t1 t2 adcT
  have h2 := tempVar2_range t1 t3 adcT
  rw [tempComp, toInt_add32]
  exact Int.bmod_eq_of_le (by omega) (by omega)

theorem tempComp_tFine_range (t1 t2 t3 adcT : Word) :
    -1179648 ≤ (tempComp t1 t2 t3 adcT).tFine.toInt ∧ (tempComp t1 t2 t3 adcT).tFine.toInt ≤ 1179646 := by
  have h1 := tempVar1_range t1 t2 adcT
  have h2 := tempVar2_range t1 t3 adcT
  rw [tempComp_tFine_toInt]
  omega

end Sys2Proof.Machine
end

section
/-! What a command or a step that answers a next state can have done: one inversion lemma for each, so that no later proof
splits a definition again. -/
namespace Sys2Proof.Machine

/-! ### What each sensor command that answers came to -/

theorem execRdcal_next {s t : State} (h : execRdcal s = .next t) :
    ∃ o s', s.busRead s.cfg.calibBase calibLen = some (o, s') ∧ t = rdcalFinish o s' := by
  unfold execRdcal at h
  split at h
  · cases h
  · rename_i a ha
    cases h
    exact ⟨a.1, a.2, ha, rfl⟩

theorem execRdraw_next {s t : State} (h : execRdraw s = .next t) :
    ∃ o s', s.busRead s.cfg.dataBase rawLen = some (o, s') ∧ t = rdrawFinish o s' := by
  unfold execRdraw at h
  split at h
  · cases h
  · rename_i a ha
    cases h
    exact ⟨a.1, a.2, ha, rfl⟩

theorem execCmpt_next {raw : Count} {s t : State} (h : execCmpt raw s = .next t) :
    (s.block.calValid = true ∧ t = cmptFinish raw s) ∨ (s.block.calValid = false ∧ t = s.raise .notCalibrated) := by
  cases h
  by_cases hv : s.block.calValid <;> simp [hv]

theorem execCmpp_next {raw : Count} {s t : State} (h : execCmpp raw s = .next t) :
    (s.block.calValid = true ∧ s.block.tseq ≠ .unset ∧ t = cmppFinish raw s) ∨
      (s.block.calValid = true ∧ s.block.tseq = .unset ∧ t = s.raise .tFineUnset) ∨
      (s.block.calValid = false ∧ t = s.raise .notCalibrated) := by
  cases h
  by_cases hv : s.block.calValid <;> by_cases hq : s.block.tseq = .unset <;> simp [hv, hq]

/-! ### What each GPIO command that answers came to -/

/-- The pin check of R130: the command's body on a valid pin, `InvalidPin` on any other. -/
theorem pinCheck_cases (pin : Nat) (s body : State) :
    (pinValid pin = true ∧ (if pinValid pin then body else s.raise .invalidPin) = body) ∨
      (pinValid pin = false ∧ (if pinValid pin then body else s.raise .invalidPin) = s.raise .invalidPin) := by
  by_cases hp : pinValid pin <;> simp [hp]

theorem execGset_next {pin : Nat} {value : Bool} {s t : State} (h : execGset pin value s = .next t) :
    (pinValid pin = true ∧ t = (levelWrite pin value s).respond 0#32 0#32) ∨
      (pinValid pin = false ∧ t = s.raise .invalidPin) := by
  cases h
  exact pinCheck_cases pin s _

theorem execGget_next {pin : Nat} {s t : State} (h : execGget pin s = .next t) :
    (pinValid pin = true ∧ t = ggetFinish pin s) ∨ (pinValid pin = false ∧ t = s.raise .invalidPin) := by
  cases h
  exact pinCheck_cases pin s _

theorem execGdin_next {pin : Nat} {s t : State} (h : execGdin pin s = .next t) :
    (pinValid pin = true ∧ t = (fselRmw pin fselInput s).respond 0#32 0#32) ∨
      (pinValid pin = false ∧ t = s.raise .invalidPin) := by
  cases h
  exact pinCheck_cases pin s _

theorem execGdout_next {pin : Nat} {value : Bool} {s t : State} (h : execGdout pin value s = .next t) :
    (pinValid pin = true ∧ t = (levelWrite pin value (fselRmw pin fselOutput s)).respond 0#32 0#32) ∨
      (pinValid pin = false ∧ t = s.raise .invalidPin) := by
  cases h
  exact pinCheck_cases pin s _

/-! ### What a step that answers came to -/

/-- A step that answers was idle, ran the legal command it took, or refused an illegal word. -/
theorem step_next {s t : State} (h : step s = .next t) :
    (s.takeCommand = none ∧ t = s) ∨
      ∃ w s', s.takeCommand = some (w, s') ∧
        ((∃ i, decode w = .legal i ∧ exec i s' = .next t) ∨
          ∃ why, decode w = .illegal why ∧ t = s'.raise .illegalCommand) := by
  unfold step at h
  split at h
  · rename_i htake
    cases h
    exact .inl ⟨htake, rfl⟩
  · rename_i c htake
    refine .inr ⟨c.1, c.2, htake, ?_⟩
    split at h
    · rename_i i hdec
      exact .inl ⟨i, hdec, h⟩
    · rename_i why hdec
      cases h
      exact .inr ⟨why, hdec, rfl⟩

end Sys2Proof.Machine
end

section
/-! Each unit's commands keep to their own channel (R2, R29, R47). -/
namespace Sys2Proof.Machine

/-! ### Sensor commands -/

/-- `t` is reached from `s` without touching the bank's end or using its channel. -/
structure KeepsOffBank (s t : State) : Prop where
  frame : SensorFrame s t
  events : ∃ ev, t.trace = s.trace ++ ev ∧ ∀ e ∈ ev, e.onBank = false

theorem KeepsOffBank.trans {s t u : State} (h : KeepsOffBank s t) (h' : KeepsOffBank t u) : KeepsOffBank s u := by
  obtain ⟨⟨cfg, host, sensor, sensorMem, bank, bankMem, memScript, others⟩, ev, htr, hev⟩ := h
  obtain ⟨⟨cfg', host', sensor', sensorMem', bank', bankMem', memScript', others'⟩, ev', htr', hev'⟩ := h'
  refine ⟨⟨cfg'.trans cfg, host'.trans host, sensor'.trans sensor, sensorMem'.trans sensorMem, bank'.trans bank,
    bankMem'.trans bankMem, memScript'.trans memScript, others'.trans others⟩, ev ++ ev', ?_, ?_⟩
  · rw [htr', htr, List.append_assoc]
  · exact fun e he => (List.mem_append.mp he).elim (hev e) (hev' e)

theorem keepsOffBank_setBlock (s : State) (b : Block) : KeepsOffBank s (s.setBlock b) :=
  ⟨⟨rfl, rfl, rfl, rfl, rfl, rfl, rfl, rfl⟩, [], by simp, by simp⟩

theorem keepsOffBank_deliver (s : State) (r : Response) : KeepsOffBank s (s.deliver r) :=
  ⟨⟨rfl, rfl, rfl, rfl, rfl, rfl, rfl, rfl⟩, [.response r], rfl, by simp [Event.onBank]⟩

theorem keepsOffBank_busRead {s s' : State} {addr : Byte} {n : Nat} {o : BusOutcome}
    (h : s.busRead addr n = some (o, s')) : KeepsOffBank s s' := by
  obtain ⟨e', he, rfl⟩ := State.busRead_spec h
  obtain ⟨-, hframe⟩ := Env.busRead_spec he
  rw [hframe]
  exact ⟨⟨rfl, rfl, rfl, rfl, rfl, rfl, rfl, rfl⟩, [.busRead addr n o], rfl, by simp [Event.onBank]⟩

theorem keepsOffBank_rdcalFinish (o : BusOutcome) (s : State) : KeepsOffBank s (rdcalFinish o s) := by
  cases o with
  | ok b => exact (keepsOffBank_setBlock s _).trans (keepsOffBank_deliver _ _)
  | short _ => exact keepsOffBank_deliver s _
  | fail => exact keepsOffBank_deliver s _

theorem keepsOffBank_rdrawFinish (o : BusOutcome) (s : State) : KeepsOffBank s (rdrawFinish o s) := by
  cases o with
  | ok b => exact keepsOffBank_deliver s _
  | short _ => exact keepsOffBank_deliver s _
  | fail => exact keepsOffBank_deliver s _

theorem keepsOffBank_execRdcal {s t : State} (h : execRdcal s = .next t) : KeepsOffBank s t := by
  obtain ⟨o, s', hread, rfl⟩ := execRdcal_next h
  exact (keepsOffBank_busRead hread).trans (keepsOffBank_rdcalFinish o s')

theorem keepsOffBank_execRdraw {s t : State} (h : execRdraw s = .next t) : KeepsOffBank s t := by
  obtain ⟨o, s', hread, rfl⟩ := execRdraw_next h
  exact (keepsOffBank_busRead hread).trans (keepsOffBank_rdrawFinish o s')

theorem keepsOffBank_execCmpt {raw : Count} {s t : State} (h : execCmpt raw s = .next t) : KeepsOffBank s t := by
  obtain ⟨-, rfl⟩ | ⟨-, rfl⟩ := execCmpt_next h
  · exact (keepsOffBank_setBlock s _).trans (keepsOffBank_deliver _ _)
  · exact keepsOffBank_deliver s _

theorem keepsOffBank_execCmpp {raw : Count} {s t : State} (h : execCmpp raw s = .next t) : KeepsOffBank s t := by
  obtain ⟨-, -, rfl⟩ | ⟨-, -, rfl⟩ | ⟨-, rfl⟩ := execCmpp_next h
  · exact (keepsOffBank_setBlock s _).trans (keepsOffBank_deliver _ _)
  · exact keepsOffBank_deliver s _
  · exact keepsOffBank_deliver s _

/-! ### GPIO commands -/

theorem Env.bankUpdate_oracle {e : Env} (h : e.bank = .oracle) (c : Config) (ws : List BankWrite) :
    e.bankUpdate c ws = e := by
  unfold Env.bankUpdate
  rw [h]

theorem Env.interfere_bankMem_of_oracle {e : Env} (h : e.bank = .oracle) (c : Config) :
    (e.interfere c).bankMem = e.bankMem := by
  unfold Env.interfere
  split
  · rfl
  · rw [Env.bankUpdate_oracle h]

theorem Env.afterMemRead_bankMem_of_oracle {e : Env} (h : e.bank = .oracle) (c : Config) (off : Word) :
    (e.afterMemRead c off).bankMem = e.bankMem := by
  rw [Env.afterMemRead, Env.bankAnswer_spec]
  exact Env.interfere_bankMem_of_oracle h c

theorem Env.afterMemWrite_bankMem_of_oracle {e : Env} (h : e.bank = .oracle) (c : Config) (off v : Word) :
    (e.afterMemWrite c off v).bankMem = e.bankMem := by
  rw [Env.afterMemWrite, Env.bankUpdate_oracle (by simpa using h), Env.interfere_bankMem_of_oracle h]

/-- `t` is reached from `s` without touching the block or the sensor's end, or using the sensor's channel. -/
structure KeepsOffSensor (s t : State) : Prop where
  frame : GpioFrame s t
  events : ∃ ev, t.trace = s.trace ++ ev ∧ ∀ e ∈ ev, e.onBus = false

theorem KeepsOffSensor.trans {s t u : State} (h : KeepsOffSensor s t) (h' : KeepsOffSensor t u) :
    KeepsOffSensor s u := by
  obtain ⟨⟨cfg, block, host, sensor, sensorMem, busScript, bank, oracle⟩, ev, htr, hev⟩ := h
  obtain ⟨⟨cfg', block', host', sensor', sensorMem', busScript', bank', oracle'⟩, ev', htr', hev'⟩ := h'
  refine ⟨⟨cfg'.trans cfg, block'.trans block, host'.trans host, sensor'.trans sensor, sensorMem'.trans sensorMem,
    busScript'.trans busScript, bank'.trans bank, fun hb => (oracle' (bank.trans hb)).trans (oracle hb)⟩,
    ev ++ ev', ?_, ?_⟩
  · rw [htr', htr, List.append_assoc]
  · exact fun e he => (List.mem_append.mp he).elim (hev e) (hev' e)

theorem keepsOffSensor_deliver (s : State) (r : Response) : KeepsOffSensor s (s.deliver r) :=
  ⟨⟨rfl, rfl, rfl, rfl, rfl, rfl, rfl, fun _ => rfl⟩, [.response r], rfl, by simp [Event.onBus]⟩

theorem keepsOffSensor_memRead (s : State) (off : Word) : KeepsOffSensor s (s.memRead off).2 :=
  ⟨⟨rfl, rfl, rfl, by simp, by simp, by simp, by simp, fun hb => Env.afterMemRead_bankMem_of_oracle hb s.cfg off⟩,
    [.memRead off (s.memRead off).1], rfl, by simp [Event.onBus]⟩

theorem keepsOffSensor_memWrite (s : State) (off v : Word) : KeepsOffSensor s (s.memWrite off v) :=
  ⟨⟨rfl, rfl, rfl, by simp, by simp, by simp, by simp, fun hb => Env.afterMemWrite_bankMem_of_oracle hb s.cfg off v⟩,
    [.memWrite off v], rfl, by simp [Event.onBus]⟩

/-- A state change that belongs to the GPIO unit alone: it keeps off the sensor unit, and the block's contents have no
influence on it. -/
structure GpioOnly (f : State → State) : Prop where
  keepsOff : ∀ s, KeepsOffSensor s (f s)
  ignoresBlock : ∀ s b, f (s.setBlock b) = (f s).setBlock b

theorem GpioOnly.comp {f g : State → State} (hg : GpioOnly g) (hf : GpioOnly f) : GpioOnly fun s => g (f s) where
  keepsOff s := (hf.keepsOff s).trans (hg.keepsOff (f s))
  ignoresBlock s b := by rw [hf.ignoresBlock, hg.ignoresBlock]

theorem gpioOnly_respond (d0 d1 : Word) : GpioOnly fun s => s.respond d0 d1 :=
  ⟨fun s => keepsOffSensor_deliver s _, fun _ _ => rfl⟩

theorem gpioOnly_raise (e : Status) : GpioOnly fun s => s.raise e :=
  ⟨fun s => keepsOffSensor_deliver s _, fun _ _ => rfl⟩

theorem gpioOnly_levelWrite (pin : Nat) (value : Bool) : GpioOnly (levelWrite pin value) :=
  ⟨fun s => keepsOffSensor_memWrite s _ _, fun _ _ => rfl⟩

theorem gpioOnly_fselRmw (pin : Nat) (code : Word) : GpioOnly (fselRmw pin code) :=
  ⟨fun s => (keepsOffSensor_memRead s _).trans (keepsOffSensor_memWrite _ _ _), fun _ _ => rfl⟩

theorem gpioOnly_ggetFinish (pin : Nat) : GpioOnly (ggetFinish pin) :=
  ⟨fun s => (keepsOffSensor_memRead s _).trans (keepsOffSensor_deliver _ _), fun _ _ => rfl⟩

/-- The pin check of R130 reads no state, so the checked command is as blind as its two ends. -/
theorem GpioOnly.ite {f g : State → State} (hf : GpioOnly f) (hg : GpioOnly g) (p : Prop) [Decidable p] :
    GpioOnly fun s => if p then f s else g s := by
  by_cases hp : p
  · simpa only [if_pos hp] using hf
  · simpa only [if_neg hp] using hg

/-- A command whose meaning is a GPIO-only state change shares nothing with the sensor unit (R2). -/
theorem GpioOnly.sharesNothing {f : State → State} (hf : GpioOnly f) {i : Instr} (hi : ∀ s, exec i s = .next (f s))
    {s t : State} (h : exec i s = .next t) :
    GpioFrame s t ∧ (∃ ev, t.trace = s.trace ++ ev ∧ ∀ e ∈ ev, e.onBus = false) ∧
      ∀ b : Block, exec i (s.setBlock b) = .next (t.setBlock b) := by
  obtain rfl : f s = t := by simpa [hi] using h
  exact ⟨(hf.keepsOff s).frame, (hf.keepsOff s).events, fun b => by rw [hi, hf.ignoresBlock]⟩

/-- Settles O47: a sensor command is built from `BusRead`, block writes and a response, a GPIO command from bank
transactions and a response, and each of these keeps to its own unit. -/
theorem unitsShareNothing : Obligations.UnitsShareNothing := by
  refine ⟨fun s t i hi h => ?_, fun s t i hi h => ?_⟩
  · have key : KeepsOffBank s t := by
      rcases hi with rfl | rfl | ⟨raw, rfl⟩ | ⟨raw, rfl⟩
      · exact keepsOffBank_execRdcal h
      · exact keepsOffBank_execRdraw h
      · exact keepsOffBank_execCmpt h
      · exact keepsOffBank_execCmpp h
    exact ⟨key.frame, key.events⟩
  · rcases hi with ⟨pin, value, rfl⟩ | ⟨pin, rfl⟩ | ⟨pin, rfl⟩ | ⟨pin, value, rfl⟩
    · exact (((gpioOnly_respond 0#32 0#32).comp (gpioOnly_levelWrite pin value)).ite (gpioOnly_raise .invalidPin)
        (pinValid pin)).sharesNothing (fun _ => rfl) h
    · exact ((gpioOnly_ggetFinish pin).ite (gpioOnly_raise .invalidPin) (pinValid pin)).sharesNothing (fun _ => rfl) h
    · exact (((gpioOnly_respond 0#32 0#32).comp (gpioOnly_fselRmw pin fselInput)).ite (gpioOnly_raise .invalidPin)
        (pinValid pin)).sharesNothing (fun _ => rfl) h
    · exact ((((gpioOnly_respond 0#32 0#32).comp (gpioOnly_levelWrite pin value)).comp
        (gpioOnly_fselRmw pin fselOutput)).ite (gpioOnly_raise .invalidPin) (pinValid pin)).sharesNothing (fun _ => rfl) h

end Sys2Proof.Machine
end

section
/-! Every step keeps the invariant, one rule per state operation. -/
namespace Sys2Proof.Machine

/-! ### The block -/

theorem Block.Inv.loadCal {b : Block} (h : b.Inv) (c : CalSet) : (b.loadCal c).Inv :=
  ⟨fun _ => rfl, h.tFineLow, h.tFineHigh⟩

/-- A CMPT on a calibrated block re-establishes all three clauses, whatever `T_FINE` was (R105). -/
theorem Block.inv_storeTFine_tempOf {b : Block} (hv : b.calValid = true) (raw : Count) :
    (b.storeTFine (tempOf b.cal raw).tFine).Inv := by
  obtain ⟨hlow, hhigh⟩ := tempComp_tFine_range (zextHalf b.cal.digT1) (sextHalf b.cal.digT2) (sextHalf b.cal.digT3)
    (zextCount raw)
  exact ⟨fun _ => hv, fun _ => hlow, fun _ => hhigh⟩

theorem Block.Inv.consumeTFine {b : Block} (h : b.Inv) (hq : b.tseq ≠ .unset) : b.consumeTFine.Inv :=
  ⟨fun _ => h.calibrated hq, fun _ => h.tFineLow hq, fun _ => h.tFineHigh hq⟩

/-! ### The state's operations -/

theorem State.Inv.setBlock {s : State} (h : s.Inv) {b : Block} (hb : b.Inv) : (s.setBlock b).Inv :=
  ⟨h.cfg, hb, h.env, h.rsp⟩

theorem State.Inv.deliver {s : State} (h : s.Inv) {r : Response} (hr : r.Inv) : (s.deliver r).Inv :=
  ⟨h.cfg, h.block, h.env, fun _ heq => Option.some.inj heq ▸ hr⟩

theorem State.Inv.respond {s : State} (h : s.Inv) (d0 d1 : Word) : (s.respond d0 d1).Inv :=
  h.deliver fun hne => absurd rfl hne

theorem State.Inv.raise {s : State} (h : s.Inv) (e : Status) : (s.raise e).Inv :=
  h.deliver fun _ => ⟨rfl, rfl⟩

theorem State.Inv.takeCommand {s s' : State} {w : Word} (h : s.Inv) (ht : s.takeCommand = some (w, s')) : s'.Inv := by
  unfold State.takeCommand at ht
  split at ht
  · cases ht
  · cases ht
    exact ⟨h.cfg, h.block, h.env, h.rsp⟩

theorem State.Inv.busRead {s s' : State} {addr : Byte} {n : Nat} {o : BusOutcome} (h : s.Inv)
    (hread : s.busRead addr n = some (o, s')) : s'.Inv := by
  obtain ⟨e', he, rfl⟩ := State.busRead_spec hread
  obtain ⟨-, hframe⟩ := Env.busRead_spec he
  rw [hframe]
  exact ⟨h.cfg, h.block, h.env, h.rsp⟩

/-- A read of the bank, with the other agents' writes before it. -/
theorem State.Inv.memRead {s : State} (h : s.Inv) (off : Word) : (s.memRead off).2.Inv := by
  obtain ⟨hsensor, hbank⟩ := h.env
  exact ⟨h.cfg, h.block, ⟨by simpa using hsensor, Env.afterMemRead_wf hbank s.cfg off⟩, h.rsp⟩

/-- A write of the bank, with the other agents' writes before it. -/
theorem State.Inv.memWrite {s : State} (h : s.Inv) (off v : Word) : (s.memWrite off v).Inv := by
  obtain ⟨hsensor, hbank⟩ := h.env
  exact ⟨h.cfg, h.block, ⟨by simpa using hsensor, Env.afterMemWrite_wf hbank s.cfg off v⟩, h.rsp⟩

/-! ### The commands -/

theorem State.Inv.rdcalFinish {s : State} (h : s.Inv) (o : BusOutcome) : (rdcalFinish o s).Inv := by
  cases o with
  | ok b => exact (h.setBlock (h.block.loadCal _)).respond _ _
  | short _ => exact h.raise _
  | fail => exact h.raise _

theorem State.Inv.rdrawFinish {s : State} (h : s.Inv) (o : BusOutcome) : (rdrawFinish o s).Inv := by
  cases o with
  | ok b => exact h.respond _ _
  | short _ => exact h.raise _
  | fail => exact h.raise _

theorem State.Inv.execRdcal {s t : State} (h : s.Inv) (hx : execRdcal s = .next t) : t.Inv := by
  obtain ⟨o, s', hread, rfl⟩ := execRdcal_next hx
  exact (h.busRead hread).rdcalFinish o

theorem State.Inv.execRdraw {s t : State} (h : s.Inv) (hx : execRdraw s = .next t) : t.Inv := by
  obtain ⟨o, s', hread, rfl⟩ := execRdraw_next hx
  exact (h.busRead hread).rdrawFinish o

theorem State.Inv.execCmpt {raw : Count} {s t : State} (h : s.Inv) (hx : execCmpt raw s = .next t) : t.Inv := by
  obtain ⟨hv, rfl⟩ | ⟨-, rfl⟩ := execCmpt_next hx
  · exact (h.setBlock (Block.inv_storeTFine_tempOf hv raw)).respond _ _
  · exact h.raise _

theorem State.Inv.execCmpp {raw : Count} {s t : State} (h : s.Inv) (hx : execCmpp raw s = .next t) : t.Inv := by
  obtain ⟨-, hq, rfl⟩ | ⟨-, -, rfl⟩ | ⟨-, rfl⟩ := execCmpp_next hx
  · exact (h.setBlock (h.block.consumeTFine hq)).respond _ _
  · exact h.raise _
  · exact h.raise _

theorem State.Inv.levelWrite {s : State} (h : s.Inv) (pin : Nat) (value : Bool) : (levelWrite pin value s).Inv :=
  h.memWrite _ _

theorem State.Inv.fselRmw {s : State} (h : s.Inv) (pin : Nat) (code : Word) : (fselRmw pin code s).Inv :=
  (h.memRead _).memWrite _ _

theorem State.Inv.execGset {pin : Nat} {value : Bool} {s t : State} (h : s.Inv) (hx : execGset pin value s = .next t) :
    t.Inv := by
  obtain ⟨-, rfl⟩ | ⟨-, rfl⟩ := execGset_next hx
  · exact (h.levelWrite pin value).respond _ _
  · exact h.raise _

theorem State.Inv.execGget {pin : Nat} {s t : State} (h : s.Inv) (hx : execGget pin s = .next t) : t.Inv := by
  obtain ⟨-, rfl⟩ | ⟨-, rfl⟩ := execGget_next hx
  · exact (h.memRead _).respond _ _
  · exact h.raise _

theorem State.Inv.execGdin {pin : Nat} {s t : State} (h : s.Inv) (hx : execGdin pin s = .next t) : t.Inv := by
  obtain ⟨-, rfl⟩ | ⟨-, rfl⟩ := execGdin_next hx
  · exact (h.fselRmw pin fselInput).respond _ _
  · exact h.raise _

theorem State.Inv.execGdout {pin : Nat} {value : Bool} {s t : State} (h : s.Inv)
    (hx : execGdout pin value s = .next t) : t.Inv := by
  obtain ⟨-, rfl⟩ | ⟨-, rfl⟩ := execGdout_next hx
  · exact ((h.fselRmw pin fselOutput).levelWrite pin value).respond _ _
  · exact h.raise _

theorem exec_keeps_inv {s t : State} (i : Instr) (h : s.Inv) (hx : exec i s = .next t) : t.Inv := by
  cases i with
  | rdcal => exact h.execRdcal hx
  | rdraw => exact h.execRdraw hx
  | cmpt raw => exact h.execCmpt hx
  | cmpp raw => exact h.execCmpp hx
  | gset pin value => exact h.execGset hx
  | gget pin => exact h.execGget hx
  | gdin pin => exact h.execGdin hx
  | gdout pin value => exact h.execGdout hx

/-! ### The step -/

/-- Settles O55: the state's operations each keep the invariant, a CMPT because of the range of R105. -/
theorem everyStepKeepsTheInvariant : Obligations.EveryStepKeepsTheInvariant := by
  intro s t hs hstep
  obtain ⟨-, rfl⟩ | ⟨w, s', htake, ⟨i, -, hexec⟩ | ⟨-, -, rfl⟩⟩ := step_next hstep
  · exact hs
  · exact exec_keeps_inv i (hs.takeCommand htake) hexec
  · exact (hs.takeCommand htake).raise _

end Sys2Proof.Machine
end

section
/-! What a step is, by what the host presents: the forward companions of `step_next`. -/
namespace Sys2Proof.Machine

/-- The state in which a command begins: its word is taken off the host's list and recorded (R70, D14). -/
def State.accept (s : State) (w : Word) (rest : List Word) : State :=
  { s with hostCommands := rest, trace := s.trace ++ [.command w] }

@[simp] theorem State.accept_cfg (s : State) (w : Word) (rest : List Word) : (s.accept w rest).cfg = s.cfg := rfl
@[simp] theorem State.accept_block (s : State) (w : Word) (rest : List Word) : (s.accept w rest).block = s.block := rfl
@[simp] theorem State.accept_trace (s : State) (w : Word) (rest : List Word) :
    (s.accept w rest).trace = s.trace ++ [.command w] := rfl

theorem State.takeCommand_accept {s : State} {w : Word} {rest : List Word} (hc : s.hostCommands = w :: rest) :
    s.takeCommand = some (w, s.accept w rest) :=
  State.takeCommand_cons hc

theorem step_idle {s : State} (hc : s.hostCommands = []) : step s = .next s := by
  simp [step, State.takeCommand_nil hc]

theorem step_legal {s : State} {w : Word} {rest : List Word} {i : Instr} (hc : s.hostCommands = w :: rest)
    (hd : decode w = .legal i) : step s = exec i (s.accept w rest) := by
  simp [step, State.takeCommand_accept hc, hd]

theorem step_illegal {s : State} {w : Word} {rest : List Word} {why : Illegal} (hc : s.hostCommands = w :: rest)
    (hd : decode w = .illegal why) : step s = .next ((s.accept w rest).raise .illegalCommand) := by
  simp [step, State.takeCommand_accept hc, hd]

end Sys2Proof.Machine
end

section
/-! Agreement is kept by every operation of the state, every command and every step (R35, U4). -/
namespace Sys2Proof.Machine

/-! ### The block -/

/-- `Block.observe` shows `CAL` and `T_FINE` only where agreement makes them equal. -/
theorem Block.Agree.observe_eq {b b' : Block} (h : b.Agree b') : b.observe = b'.observe := by
  have hcal : (if b.calValid then some b.cal else none) = if b.calValid then some b'.cal else none :=
    ite_congr rfl (fun hv => congrArg some (h.cal hv)) fun _ => rfl
  have htFine : (if b.tseq = .unset then none else some b.tFine) = if b.tseq = .unset then none else some b'.tFine :=
    ite_congr rfl (fun _ => rfl) fun hq => congrArg some (h.tFine hq)
  simp only [Block.observe, ← h.calValid, ← h.tseq, hcal, htFine]

/-- RDCAL writes every constant, so what `CAL` held before is gone. -/
theorem Block.Agree.loadCal {b b' : Block} (h : b.Agree b') (c : CalSet) : (b.loadCal c).Agree (b'.loadCal c) :=
  ⟨rfl, h.tseq, fun _ => rfl, h.tFine⟩

/-- CMPT overwrites what `T_FINE` held before. -/
theorem Block.Agree.storeTFine {b b' : Block} (h : b.Agree b') (t : Word) : (b.storeTFine t).Agree (b'.storeTFine t) :=
  ⟨h.calValid, congrArg Tseq.afterCmpt h.tseq, h.cal, fun _ => rfl⟩

/-- CMPP moves the sequencer only in a phase in which `T_FINE` has a value. -/
theorem Block.Agree.consumeTFine {b b' : Block} (h : b.Agree b') (hq : b.tseq ≠ .unset) :
    b.consumeTFine.Agree b'.consumeTFine :=
  ⟨h.calValid, congrArg Tseq.afterCmpp h.tseq, h.cal, fun _ => h.tFine hq⟩

/-! ### The state's operations -/

/-- Agreeing states differ in their block alone. -/
theorem State.Agree.eq_setBlock {s s' : State} (h : s.Agree s') : s' = s.setBlock s'.block := by
  obtain ⟨hcfg, -, hrsp, hhost, henv, htrace⟩ := h
  simp only [State.setBlock, hcfg, hrsp, hhost, henv, htrace]

theorem State.agree_setBlock {s : State} {b : Block} (hb : s.block.Agree b) : s.Agree (s.setBlock b) :=
  ⟨rfl, hb, rfl, rfl, rfl, rfl⟩

theorem State.Agree.setBlock {s s' : State} (h : s.Agree s') {b b' : Block} (hb : b.Agree b') :
    (s.setBlock b).Agree (s'.setBlock b') :=
  ⟨h.cfg, hb, h.rsp, h.hostCommands, h.env, h.trace⟩

theorem State.Agree.setEnv {s s' : State} (h : s.Agree s') (e : Env) : (s.setEnv e).Agree (s'.setEnv e) :=
  ⟨h.cfg, h.block, h.rsp, h.hostCommands, rfl, h.trace⟩

theorem State.Agree.log {s s' : State} (h : s.Agree s') (e : Event) : (s.log e).Agree (s'.log e) :=
  ⟨h.cfg, h.block, h.rsp, h.hostCommands, h.env, by simp [h.trace]⟩

theorem State.Agree.deliver {s s' : State} (h : s.Agree s') (r : Response) : (s.deliver r).Agree (s'.deliver r) :=
  ⟨h.cfg, h.block, rfl, h.hostCommands, h.env, by simp [h.trace]⟩

theorem State.Agree.respond {s s' : State} (h : s.Agree s') (d0 d1 : Word) : (s.respond d0 d1).Agree (s'.respond d0 d1) :=
  h.deliver _

theorem State.Agree.raise {s s' : State} (h : s.Agree s') (e : Status) : (s.raise e).Agree (s'.raise e) :=
  h.deliver _

theorem State.Agree.accept {s s' : State} (h : s.Agree s') (w : Word) (rest : List Word) :
    (s.accept w rest).Agree (s'.accept w rest) :=
  ⟨h.cfg, h.block, h.rsp, rfl, h.env, by simp [h.trace]⟩

/-- The channel answers both or neither, with one outcome. -/
theorem State.Agree.busRead {s s' : State} (h : s.Agree s') (addr : Byte) (n : Nat) :
    (s.busRead addr n = none ∧ s'.busRead addr n = none) ∨
      ∃ o u u', s.busRead addr n = some (o, u) ∧ s'.busRead addr n = some (o, u') ∧ u.Agree u' := by
  cases he : s.env.busRead addr n with
  | none => exact .inl ⟨State.busRead_eq_none he, State.busRead_eq_none (h.env ▸ he)⟩
  | some a =>
    exact .inr ⟨a.1, _, _, State.busRead_of_env he, State.busRead_of_env (h.env ▸ he), (h.setEnv a.2).log _⟩

/-! ### Outcomes -/

/-- Two outcomes that a host cannot tell apart: agreeing next states, or one and the same stop. -/
inductive OutcomesAgree : Host.Outcome State Fault Refusal → Host.Outcome State Fault Refusal → Prop where
  | next {t t' : State} (h : t.Agree t') : OutcomesAgree (.next t) (.next t')
  | fault (f : Fault) : OutcomesAgree (.fault f) (.fault f)

theorem OutcomesAgree.of_next {t : State} {o : Host.Outcome State Fault Refusal} (h : OutcomesAgree (.next t) o) :
    ∃ t', o = .next t' ∧ t.Agree t' := by
  cases h with
  | next h => exact ⟨_, rfl, h⟩

theorem OutcomesAgree.of_fault {f : Fault} {o : Host.Outcome State Fault Refusal} (h : OutcomesAgree (.fault f) o) :
    o = .fault f := by
  cases h with
  | fault => rfl

/-! ### The commands -/

theorem agree_rdcalFinish {s s' : State} (h : s.Agree s') (o : BusOutcome) : (rdcalFinish o s).Agree (rdcalFinish o s') := by
  cases o with
  | ok b => exact (h.setBlock (h.block.loadCal _)).respond _ _
  | short _ => exact h.raise _
  | fail => exact h.raise _

theorem agree_rdrawFinish {s s' : State} (h : s.Agree s') (o : BusOutcome) : (rdrawFinish o s).Agree (rdrawFinish o s') := by
  cases o with
  | ok b => exact h.respond _ _
  | short _ => exact h.raise _
  | fail => exact h.raise _

/-- A calibrated CMPT computes from a `CAL` that both states hold. -/
theorem agree_cmptFinish {s s' : State} (h : s.Agree s') (hv : s.block.calValid = true) (raw : Count) :
    (cmptFinish raw s).Agree (cmptFinish raw s') := by
  unfold cmptFinish
  rw [← h.block.cal hv]
  exact (h.setBlock (h.block.storeTFine _)).respond _ _

/-- A calibrated CMPP past `UNSET` computes from a `CAL` and a `T_FINE` that both states hold. -/
theorem agree_cmppFinish {s s' : State} (h : s.Agree s') (hv : s.block.calValid = true) (hq : s.block.tseq ≠ .unset)
    (raw : Count) : (cmppFinish raw s).Agree (cmppFinish raw s') := by
  unfold cmppFinish
  rw [← h.block.cal hv, ← h.block.tFine hq, ← h.block.tseq]
  exact (h.setBlock (h.block.consumeTFine hq)).respond _ _

theorem agree_execRdcal {s s' : State} (h : s.Agree s') : OutcomesAgree (execRdcal s) (execRdcal s') := by
  unfold execRdcal
  rw [← h.cfg]
  obtain ⟨hs, hs'⟩ | ⟨o, u, u', hs, hs', hu⟩ := h.busRead s.cfg.calibBase calibLen <;> rw [hs, hs']
  · exact .fault _
  · exact .next (agree_rdcalFinish hu o)

theorem agree_execRdraw {s s' : State} (h : s.Agree s') : OutcomesAgree (execRdraw s) (execRdraw s') := by
  unfold execRdraw
  rw [← h.cfg]
  obtain ⟨hs, hs'⟩ | ⟨o, u, u', hs, hs', hu⟩ := h.busRead s.cfg.dataBase rawLen <;> rw [hs, hs']
  · exact .fault _
  · exact .next (agree_rdrawFinish hu o)

theorem agree_execCmpt {s s' : State} (h : s.Agree s') (raw : Count) :
    OutcomesAgree (execCmpt raw s) (execCmpt raw s') := by
  refine .next ?_
  rw [← h.block.calValid]
  split
  · next hv => exact agree_cmptFinish h hv raw
  · exact h.raise _

theorem agree_execCmpp {s s' : State} (h : s.Agree s') (raw : Count) :
    OutcomesAgree (execCmpp raw s) (execCmpp raw s') := by
  refine .next ?_
  rw [← h.block.calValid, ← h.block.tseq]
  split
  · next hv =>
    split
    · exact h.raise _
    · next hq => exact agree_cmppFinish h hv hq raw
  · exact h.raise _

/-- A GPIO command leaves the block alone and does not look at it (O47), so it commutes with the change of block. -/
theorem agree_gpio {i : Instr}
    (hi : (∃ pin value, i = .gset pin value) ∨ (∃ pin, i = .gget pin) ∨ (∃ pin, i = .gdin pin) ∨
      ∃ pin value, i = .gdout pin value)
    {s s' t : State} (h : s.Agree s') (hx : exec i s = .next t) : OutcomesAgree (exec i s) (exec i s') := by
  obtain ⟨hframe, -, hblind⟩ := unitsShareNothing.2 s t i hi hx
  rw [h.eq_setBlock, hx, hblind]
  exact .next (State.agree_setBlock (hframe.block ▸ h.block))

theorem agree_exec {s s' : State} (h : s.Agree s') (i : Instr) : OutcomesAgree (exec i s) (exec i s') := by
  cases i with
  | rdcal => exact agree_execRdcal h
  | rdraw => exact agree_execRdraw h
  | cmpt raw => exact agree_execCmpt h raw
  | cmpp raw => exact agree_execCmpp h raw
  | gset pin value => exact agree_gpio (.inl ⟨pin, value, rfl⟩) h rfl
  | gget pin => exact agree_gpio (.inr (.inl ⟨pin, rfl⟩)) h rfl
  | gdin pin => exact agree_gpio (.inr (.inr (.inl ⟨pin, rfl⟩))) h rfl
  | gdout pin value => exact agree_gpio (.inr (.inr (.inr ⟨pin, value, rfl⟩))) h rfl

/-! ### The step -/

theorem agree_step {s s' : State} (h : s.Agree s') : OutcomesAgree (step s) (step s') := by
  cases hc : s.hostCommands with
  | nil =>
    rw [step_idle hc, step_idle (h.hostCommands ▸ hc)]
    exact .next h
  | cons w rest =>
    cases hd : decode w with
    | legal i =>
      rw [step_legal hc hd, step_legal (h.hostCommands ▸ hc) hd]
      exact agree_exec (h.accept w rest) i
    | illegal why =>
      rw [step_illegal hc hd, step_illegal (h.hostCommands ▸ hc) hd]
      exact .next ((h.accept w rest).raise _)

/-- Settles O56: every operation keeps agreement; CMPT and CMPP read `CAL` and `T_FINE` only behind the checks of R165 and
R166, and the GPIO commands do not read the block. -/
theorem unspecifiedContentsNeverShow : Obligations.UnspecifiedContentsNeverShow := fun _ _ h =>
  ⟨h.block.observe_eq, fun _ ht => (ht ▸ agree_step h : OutcomesAgree (.next _) _).of_next,
    fun _ hf => (hf ▸ agree_step h : OutcomesAgree (.fault _) _).of_fault⟩

end Sys2Proof.Machine
end

section
/-! What a command that answers did to the block, and with which response; the writers of each state element follow from
it (R22 to R25, R28). -/
namespace Sys2Proof.Machine

/-! ### Effects -/

/-- What a presented word, decoded as `d`, can do between the state `s` in which its command begins and the state `t` in
which it has ended: the three writers of the block, the compensations turned away, and everything else. -/
inductive CommandEffect (d : Decoded) (s t : State) : Prop where
  /-- An RDCAL that ends `OK` (R81). -/
  | loadsCal (b : List Byte) (hd : d = .legal .rdcal) (hb : t.block = s.block.loadCal (parseCal b))
      (hr : t.rsp = some ⟨.ok, 0#32, 0#32⟩)
      (ht : t.trace = s.trace ++ [.busRead s.cfg.calibBase calibLen (.ok b), .response ⟨.ok, 0#32, 0#32⟩])
  /-- A CMPT that ends `OK` (R104). -/
  | storesTFine (raw : Count) (hd : d = .legal (.cmpt raw)) (hv : s.block.calValid = true)
      (hb : t.block = s.block.storeTFine (tempOf s.block.cal raw).tFine)
      (hr : t.rsp = some ⟨.ok, (tempOf s.block.cal raw).temp, 0#32⟩)
  /-- A CMPP that ends `OK` (R109). -/
  | consumesTFine (raw : Count) (hd : d = .legal (.cmpp raw)) (hq : s.block.tseq ≠ .unset)
      (hb : t.block = s.block.consumeTFine)
      (hr : t.rsp = some ⟨.ok, pressureOf s.block.cal s.block.tFine raw, zextBit s.block.tseq.stale⟩)
  /-- A CMPT without constants (R165). -/
  | turnsAwayCmpt (raw : Count) (hd : d = .legal (.cmpt raw)) (hv : s.block.calValid = false) (hb : t.block = s.block)
      (hr : t.rsp = some ⟨.notCalibrated, 0#32, 0#32⟩)
  /-- A CMPP without constants (R165) or without a `T_FINE` (R166). -/
  | turnsAwayCmpp (raw : Count) (hd : d = .legal (.cmpp raw)) (hb : t.block = s.block)
      (hr : t.rsp = some ⟨if s.block.calValid then .tFineUnset else .notCalibrated, 0#32, 0#32⟩)
  /-- No compensation, and no RDCAL that ends `OK`. -/
  | leavesBlock (r : Response) (ht : ∀ raw, d ≠ .legal (.cmpt raw)) (hp : ∀ raw, d ≠ .legal (.cmpp raw))
      (hb : t.block = s.block) (hr : t.rsp = some r)

theorem commandEffect_execRdcal {s t : State} (h : execRdcal s = .next t) : CommandEffect (.legal .rdcal) s t := by
  obtain ⟨o, s', hread, rfl⟩ := execRdcal_next h
  obtain ⟨e', -, rfl⟩ := State.busRead_spec hread
  cases o with
  | ok b => exact .loadsCal b rfl rfl rfl (List.append_assoc _ _ _)
  | short _ => exact .leavesBlock _ nofun nofun rfl rfl
  | fail => exact .leavesBlock _ nofun nofun rfl rfl

theorem commandEffect_execRdraw {s t : State} (h : execRdraw s = .next t) : CommandEffect (.legal .rdraw) s t := by
  obtain ⟨o, s', hread, rfl⟩ := execRdraw_next h
  obtain ⟨e', -, rfl⟩ := State.busRead_spec hread
  cases o <;> exact .leavesBlock _ nofun nofun rfl rfl

theorem commandEffect_execCmpt {raw : Count} {s t : State} (h : execCmpt raw s = .next t) :
    CommandEffect (.legal (.cmpt raw)) s t := by
  obtain ⟨hv, rfl⟩ | ⟨hv, rfl⟩ := execCmpt_next h
  · exact .storesTFine raw rfl hv rfl rfl
  · exact .turnsAwayCmpt raw rfl hv rfl rfl

theorem commandEffect_execCmpp {raw : Count} {s t : State} (h : execCmpp raw s = .next t) :
    CommandEffect (.legal (.cmpp raw)) s t := by
  obtain ⟨-, hq, rfl⟩ | ⟨hv, -, rfl⟩ | ⟨hv, rfl⟩ := execCmpp_next h
  · exact .consumesTFine raw rfl hq rfl rfl
  · exact .turnsAwayCmpp raw rfl rfl (by simp [hv])
  · exact .turnsAwayCmpp raw rfl rfl (by simp [hv])

/-- A GPIO command ends in the answer to its bank transactions or in `InvalidPin`, on the block it began with (R29). -/
theorem commandEffect_pinCheck {d : Decoded} {p q : Prop} {s t body : State} {d0 d1 : Word}
    (h : (p ∧ t = body.respond d0 d1) ∨ (q ∧ t = s.raise .invalidPin)) (hbody : body.block = s.block)
    (ht : ∀ raw, d ≠ .legal (.cmpt raw)) (hp : ∀ raw, d ≠ .legal (.cmpp raw)) : CommandEffect d s t := by
  obtain ⟨-, rfl⟩ | ⟨-, rfl⟩ := h
  · exact .leavesBlock _ ht hp hbody rfl
  · exact .leavesBlock _ ht hp rfl rfl

theorem exec_effect {s t : State} (i : Instr) (h : exec i s = .next t) : CommandEffect (.legal i) s t := by
  cases i with
  | rdcal => exact commandEffect_execRdcal h
  | rdraw => exact commandEffect_execRdraw h
  | cmpt raw => exact commandEffect_execCmpt h
  | cmpp raw => exact commandEffect_execCmpp h
  | gset pin value => exact commandEffect_pinCheck (execGset_next h) rfl nofun nofun
  | gget pin => exact commandEffect_pinCheck (execGget_next h) rfl nofun nofun
  | gdin pin => exact commandEffect_pinCheck (execGdin_next h) rfl nofun nofun
  | gdout pin value => exact commandEffect_pinCheck (execGdout_next h) rfl nofun nofun

/-- A step on a presented word that answers has that word's effect. -/
theorem step_effect {s t : State} {w : Word} {rest : List Word} (hc : s.hostCommands = w :: rest)
    (h : step s = .next t) : CommandEffect (decode w) (s.accept w rest) t := by
  cases hd : decode w with
  | legal i => exact exec_effect i ((step_legal hc hd).symm.trans h)
  | illegal why =>
    rw [step_illegal hc hd] at h
    cases h
    exact .leavesBlock _ nofun nofun rfl rfl

/-- A step that answers was idle or had the effect of the word presented. -/
theorem step_cases {s t : State} (h : step s = .next t) :
    (s.hostCommands = [] ∧ t = s) ∨
      ∃ w rest, s.hostCommands = w :: rest ∧ CommandEffect (decode w) (s.accept w rest) t := by
  cases hc : s.hostCommands with
  | nil =>
    rw [step_idle hc] at h
    cases h
    exact .inl ⟨rfl, rfl⟩
  | cons w rest => exact .inr ⟨w, rest, rfl, step_effect hc h⟩

/-! ### The sequencer -/

theorem zextBit_eq_one_iff (b : Bool) : zextBit b = 1#32 ↔ b = true := by cases b <;> decide

/-- Settles O30: the table is read off the effects of a command. -/
theorem sequencerTransitions : Obligations.SequencerTransitions := by
  refine ⟨⟨rfl, rfl, rfl, fun p => by cases p <;> decide⟩, rfl, fun s t w rest hc h => ?_⟩
  cases step_effect hc h with
  | loadsCal b hd hb hr ht => exact ⟨_, hr, by simp [hb], by simp [hd], by simp [hd], by simp [hb]⟩
  | storesTFine raw hd hv hb hr => exact ⟨_, hr, by simp, by simp [hb], by simp [hd], by simp [hd]⟩
  | consumesTFine raw hd hq hb hr =>
    have hphase : t.block.tseq = .consumed := by rw [hb]; exact Tseq.afterCmpp_eq hq
    have hstale : zextBit s.block.tseq.stale = 1#32 ↔ s.block.tseq = .consumed :=
      (zextBit_eq_one_iff _).trans (Tseq.stale_iff _)
    exact ⟨_, hr, by simp, by simp [hd], fun _ _ => ⟨fun _ hu => absurd hu hq, fun _ => ⟨hq, hphase, hstale⟩⟩,
      fun _ hp => absurd hd (hp raw)⟩
  | turnsAwayCmpt raw hd hv hb hr => exact ⟨_, hr, by simp [hb], by simp, by simp [hd], by simp [hb]⟩
  | turnsAwayCmpp raw hd hb hr =>
    have hstatus : (if s.block.calValid then Status.tFineUnset else .notCalibrated) ≠ .ok := by split <;> decide
    exact ⟨_, hr, by simp [hb], by simp [hd],
      fun _ _ => ⟨fun hv hu => ⟨if_pos hv, by simp [hb, hu]⟩, fun hok => absurd hok hstatus⟩, by simp [hb]⟩
  | leavesBlock r hnt hnp hb hr =>
    exact ⟨r, hr, by simp [hb], fun raw hd => absurd hd (hnt raw), fun raw hd => absurd hd (hnp raw), by simp [hb]⟩

/-! ### The registers -/

/-- Settles O31: of the effects of a command only `loadsCal` changes `CAL` or `CAL_VALID`. -/
theorem onlySuccessfulRdcalWritesCal : Obligations.OnlySuccessfulRdcalWritesCal := by
  intro s t h
  obtain ⟨-, rfl⟩ | ⟨w, rest, hc, heffect⟩ := step_cases h
  · exact .inl ⟨rfl, rfl⟩
  · cases heffect with
    | loadsCal b hd hb hr ht =>
      exact .inr ⟨w, rest, b, _, hc, hd, by simpa [calibLen] using ht, rfl, by simp [hb], by simp [hb]⟩
    | storesTFine raw hd hv hb hr => exact .inl (by simp [hb])
    | consumesTFine raw hd hq hb hr => exact .inl (by simp [hb])
    | turnsAwayCmpt raw hd hv hb hr => exact .inl (by simp [hb])
    | turnsAwayCmpp raw hd hb hr => exact .inl (by simp [hb])
    | leavesBlock r hnt hnp hb hr => exact .inl (by simp [hb])

/-- A calibrated CMPT answers, with its `t_fine` in `T_FINE`. -/
theorem step_cmpt_calibrated {s : State} {w : Word} {rest : List Word} {raw : Count} (hc : s.hostCommands = w :: rest)
    (hd : decode w = .legal (.cmpt raw)) (hv : s.block.calValid = true) :
    step s = .next (cmptFinish raw (s.accept w rest)) := by
  rw [step_legal hc hd]
  simp [exec, execCmpt, hv]

/-- Settles O32: of the effects of a command only `storesTFine` changes `T_FINE`. -/
theorem onlySuccessfulCmptWritesTFine : Obligations.OnlySuccessfulCmptWritesTFine := by
  refine fun s t h => ⟨fun w rest raw hc hd hv => ?_, fun hno => ?_⟩
  · rw [step_cmpt_calibrated hc hd hv] at h
    cases h
    exact ⟨rfl, _, rfl, rfl⟩
  · obtain ⟨-, rfl⟩ | ⟨w, rest, hc, heffect⟩ := step_cases h
    · rfl
    · cases heffect with
      | storesTFine raw hd hv hb hr => exact absurd (hno w rest raw hc hd) (by simpa using hv)
      | loadsCal b hd hb hr ht => simp [hb]
      | consumesTFine raw hd hq hb hr => simp [hb]
      | turnsAwayCmpt raw hd hv hb hr => simp [hb]
      | turnsAwayCmpp raw hd hb hr => simp [hb]
      | leavesBlock r hnt hnp hb hr => simp [hb]

/-! ### The configuration -/

/-- Each unit's frame holds the configuration (O47). -/
theorem exec_keeps_cfg {s t : State} (i : Instr) (h : exec i s = .next t) : t.cfg = s.cfg := by
  cases i with
  | rdcal => exact (keepsOffBank_execRdcal h).frame.cfg
  | rdraw => exact (keepsOffBank_execRdraw h).frame.cfg
  | cmpt raw => exact (keepsOffBank_execCmpt h).frame.cfg
  | cmpp raw => exact (keepsOffBank_execCmpp h).frame.cfg
  | gset pin value => exact (unitsShareNothing.2 s t _ (.inl ⟨pin, value, rfl⟩) h).1.cfg
  | gget pin => exact (unitsShareNothing.2 s t _ (.inr (.inl ⟨pin, rfl⟩)) h).1.cfg
  | gdin pin => exact (unitsShareNothing.2 s t _ (.inr (.inr (.inl ⟨pin, rfl⟩))) h).1.cfg
  | gdout pin value => exact (unitsShareNothing.2 s t _ (.inr (.inr (.inr ⟨pin, value, rfl⟩))) h).1.cfg

theorem State.takeCommand_keeps_cfg {s s' : State} {w : Word} (h : s.takeCommand = some (w, s')) : s'.cfg = s.cfg := by
  unfold State.takeCommand at h
  split at h
  · cases h
  · cases h
    rfl

/-- Settles O52: neither taking a command nor running it nor refusing it writes the configuration. -/
theorem configurationIsNeverWritten : Obligations.ConfigurationIsNeverWritten := by
  intro s t h
  obtain ⟨-, rfl⟩ | ⟨w, s', htake, ⟨i, -, hexec⟩ | ⟨-, -, rfl⟩⟩ := step_next h
  · rfl
  · exact (exec_keeps_cfg i hexec).trans (State.takeCommand_keeps_cfg htake)
  · exact (State.raise_cfg s' _).trans (State.takeCommand_keeps_cfg htake)

end Sys2Proof.Machine
end

section
/-! The answers of the register channel, by what its script and its sensor are (R41, R56). -/
namespace Sys2Proof.Machine

/-- A scripted answer decides the outcome, and is used up. -/
theorem Env.busRead_answer {e : Env} {a : BusAnswer} {rest : List ScriptEntry} (h : e.busScript = .answer a :: rest)
    (addr : Byte) (n : Nat) : e.busRead addr n = some (busOutcome a n, { e with busScript := rest }) := by
  simp [Env.busRead, h]

/-- StaticSensor answers with its registers, and nothing of the environment moves on (R56). -/
theorem Env.busRead_static {e : Env} (hscript : e.busScript = []) (hsensor : e.sensor = .static) (addr : Byte)
    (n : Nat) : e.busRead addr n = some (.ok (e.sensorMem.slice addr.toNat n), e) := by
  simp [Env.busRead, Env.unscriptedBusRead, hscript, hsensor]

theorem busOutcome_exact {b : List Byte} {n : Nat} (h : b.length = n) : busOutcome (.delivered b) n = .ok b :=
  if_pos h

theorem busOutcome_short {b : List Byte} {n : Nat} (h : b.length < n) :
    busOutcome (.delivered b) n = .short b.length :=
  (if_neg h.ne).trans (if_pos h)

theorem Memory.getElem?_slice (m : Memory) (a : Nat) {n i : Nat} (h : i < n) :
    (m.slice a n)[i]? = some (m.get (a + i)) := by
  simp [Memory.slice, h]

/-- Settles O20: the outcome is that of an answer, which the script gives, or else StaticSensor. -/
theorem busReadHasThreeOutcomes : Obligations.BusReadHasThreeOutcomes := by
  refine ⟨fun e e' addr n o h => (Env.busRead_spec h).1,
    fun e addr n b rest hscript => ⟨fun hlen => ?_, fun hlen => ?_⟩,
    fun e addr n rest hscript => Env.busRead_answer hscript addr n, fun e addr n hscript hsensor => ?_⟩
  · rw [Env.busRead_answer hscript, busOutcome_exact hlen]
  · rw [Env.busRead_answer hscript, busOutcome_short hlen]
  · exact ⟨_, Env.busRead_static hscript hsensor addr n, Memory.length_slice _ _ _,
      fun i hi => Memory.getElem?_slice _ _ hi⟩

end Sys2Proof.Machine
end

section
/-! Every transaction of a command lies within the reach of R47 and R50. -/
namespace Sys2Proof.Machine

/-! ### The offsets the block computes (R50, R131, R132) -/

theorem toNat_fselAddr {c : Config} (hc : c.Ok) {pin : Nat} (hp : pin < pinCount) :
    (fselAddr c pin).toNat = c.fselOff.toNat + 4 * fselWord pin :=
  toNat_wordOffset (fselWord_lt hp) hc.fselFits

theorem toNat_setAddr {c : Config} (hc : c.Ok) {pin : Nat} (hp : pin < pinCount) :
    (setAddr c pin).toNat = c.setOff.toNat + 4 * levelWord pin :=
  toNat_wordOffset (levelWord_lt hp) hc.setFits

theorem toNat_clrAddr {c : Config} (hc : c.Ok) {pin : Nat} (hp : pin < pinCount) :
    (clrAddr c pin).toNat = c.clrOff.toNat + 4 * levelWord pin :=
  toNat_wordOffset (levelWord_lt hp) hc.clrFits

theorem toNat_levAddr {c : Config} (hc : c.Ok) {pin : Nat} (hp : pin < pinCount) :
    (levAddr c pin).toNat = c.levOff.toNat + 4 * levelWord pin :=
  toNat_wordOffset (levelWord_lt hp) hc.levFits

/-- Words of a block whose base is a multiple of 4 lie at multiples of 4 (R46). -/
theorem word_aligned {base off i : Nat} (hbase : base % 4 = 0) (hoff : off = base + 4 * i) : off % 4 = 0 := by omega

/-! ### The transactions of R47 -/

theorem withinReach_memRead_fselAddr {c : Config} (hc : c.Ok) {pin : Nat} (hp : pin < pinCount) (x : Word) :
    (Event.memRead (fselAddr c pin) x).withinReach c :=
  ⟨word_aligned hc.fselAligned (toNat_fselAddr hc hp), .inl ⟨_, fselWord_lt hp, toNat_fselAddr hc hp⟩⟩

theorem withinReach_memRead_levAddr {c : Config} (hc : c.Ok) {pin : Nat} (hp : pin < pinCount) (x : Word) :
    (Event.memRead (levAddr c pin) x).withinReach c :=
  ⟨word_aligned hc.levAligned (toNat_levAddr hc hp), .inr ⟨_, levelWord_lt hp, toNat_levAddr hc hp⟩⟩

theorem withinReach_memWrite_fselAddr {c : Config} (hc : c.Ok) {pin : Nat} (hp : pin < pinCount) (x : Word) :
    (Event.memWrite (fselAddr c pin) x).withinReach c :=
  ⟨word_aligned hc.fselAligned (toNat_fselAddr hc hp), .inl ⟨_, fselWord_lt hp, toNat_fselAddr hc hp⟩⟩

theorem withinReach_memWrite_setAddr {c : Config} (hc : c.Ok) {pin : Nat} (hp : pin < pinCount) (x : Word) :
    (Event.memWrite (setAddr c pin) x).withinReach c :=
  ⟨word_aligned hc.setAligned (toNat_setAddr hc hp), .inr (.inl ⟨_, levelWord_lt hp, toNat_setAddr hc hp⟩)⟩

theorem withinReach_memWrite_clrAddr {c : Config} (hc : c.Ok) {pin : Nat} (hp : pin < pinCount) (x : Word) :
    (Event.memWrite (clrAddr c pin) x).withinReach c :=
  ⟨word_aligned hc.clrAligned (toNat_clrAddr hc hp), .inr (.inr ⟨_, levelWord_lt hp, toNat_clrAddr hc hp⟩)⟩

/-! ### Stretches of a command -/

/-- `t` is reached from `s` by transactions within reach alone. -/
structure StaysWithinReach (s t : State) : Prop where
  cfg : t.cfg = s.cfg
  events : ∃ txs, t.trace = s.trace ++ txs ∧ ∀ e ∈ txs, e.withinReach s.cfg

/-- `t` ends, with a response, a command begun in `s` that stayed within reach. -/
def AnswersWithinReach (s t : State) : Prop :=
  ∃ txs r, t.trace = s.trace ++ txs ++ [.response r] ∧ ∀ e ∈ txs, e.withinReach s.cfg

theorem StaysWithinReach.refl (s : State) : StaysWithinReach s s := ⟨rfl, [], by simp, by simp⟩

/-- One more transaction. -/
theorem StaysWithinReach.append {s t u : State} (h : StaysWithinReach s t) {e : Event} (hcfg : u.cfg = t.cfg)
    (htrace : u.trace = t.trace ++ [e]) (he : e.withinReach s.cfg) : StaysWithinReach s u := by
  obtain ⟨hc, txs, htr, hreach⟩ := h
  refine ⟨hcfg.trans hc, txs ++ [e], by rw [htrace, htr, List.append_assoc], fun e' he' => ?_⟩
  obtain hmem | hlast := List.mem_append.mp he'
  · exact hreach e' hmem
  · exact List.mem_singleton.mp hlast ▸ he

theorem StaysWithinReach.memRead {s t : State} (h : StaysWithinReach s t) {off : Word}
    (hreach : ∀ x, (Event.memRead off x).withinReach s.cfg) : StaysWithinReach s (t.memRead off).2 :=
  h.append rfl (State.memRead_trace t off) (hreach _)

theorem StaysWithinReach.memWrite {s t : State} (h : StaysWithinReach s t) {off v : Word}
    (hreach : (Event.memWrite off v).withinReach s.cfg) : StaysWithinReach s (t.memWrite off v) :=
  h.append rfl (State.memWrite_trace t off v) hreach

theorem StaysWithinReach.setBlock {s t : State} (h : StaysWithinReach s t) (b : Block) :
    StaysWithinReach s (t.setBlock b) :=
  ⟨h.cfg, h.events⟩

theorem StaysWithinReach.deliver {s t : State} (h : StaysWithinReach s t) (r : Response) :
    AnswersWithinReach s (t.deliver r) := by
  obtain ⟨-, txs, htr, hreach⟩ := h
  exact ⟨txs, r, by rw [State.deliver_trace, htr], hreach⟩

theorem AnswersWithinReach.raise (s : State) (e : Status) : AnswersWithinReach s (s.raise e) :=
  (StaysWithinReach.refl s).deliver _

/-! ### The sensor commands -/

theorem staysWithinReach_busRead {s s' : State} {addr : Byte} {n : Nat} {o : BusOutcome}
    (hread : s.busRead addr n = some (o, s')) (hreach : (Event.busRead addr n o).withinReach s.cfg) :
    StaysWithinReach s s' := by
  obtain ⟨e', -, rfl⟩ := State.busRead_spec hread
  exact (StaysWithinReach.refl s).append rfl rfl hreach

theorem answersWithinReach_execRdcal {s t : State} (h : execRdcal s = .next t) : AnswersWithinReach s t := by
  obtain ⟨o, s', hread, rfl⟩ := execRdcal_next h
  have hs' : StaysWithinReach s s' := staysWithinReach_busRead hread (.inl ⟨rfl, rfl⟩)
  cases o with
  | ok b => exact (hs'.setBlock _).deliver _
  | short _ => exact hs'.deliver _
  | fail => exact hs'.deliver _

theorem answersWithinReach_execRdraw {s t : State} (h : execRdraw s = .next t) : AnswersWithinReach s t := by
  obtain ⟨o, s', hread, rfl⟩ := execRdraw_next h
  have hs' : StaysWithinReach s s' := staysWithinReach_busRead hread (.inr ⟨rfl, rfl⟩)
  cases o <;> exact hs'.deliver _

theorem answersWithinReach_execCmpt {raw : Count} {s t : State} (h : execCmpt raw s = .next t) :
    AnswersWithinReach s t := by
  obtain ⟨-, rfl⟩ | ⟨-, rfl⟩ := execCmpt_next h
  · exact ((StaysWithinReach.refl s).setBlock _).deliver _
  · exact .raise s _

theorem answersWithinReach_execCmpp {raw : Count} {s t : State} (h : execCmpp raw s = .next t) :
    AnswersWithinReach s t := by
  obtain ⟨-, -, rfl⟩ | ⟨-, -, rfl⟩ | ⟨-, rfl⟩ := execCmpp_next h
  · exact ((StaysWithinReach.refl s).setBlock _).deliver _
  · exact .raise s _
  · exact .raise s _

/-! ### The GPIO commands -/

theorem pinValid_iff {pin : Nat} : pinValid pin = true ↔ pin < pinCount := decide_eq_true_iff

theorem StaysWithinReach.levelWrite {s t : State} (h : StaysWithinReach s t) (hc : s.cfg.Ok) {pin : Nat}
    (hp : pin < pinCount) (value : Bool) : StaysWithinReach s (levelWrite pin value t) := by
  refine h.memWrite ?_
  rw [h.cfg]
  cases value with
  | true => exact withinReach_memWrite_setAddr hc hp _
  | false => exact withinReach_memWrite_clrAddr hc hp _

theorem staysWithinReach_fselRmw {s : State} (hc : s.cfg.Ok) {pin : Nat} (hp : pin < pinCount) (code : Word) :
    StaysWithinReach s (fselRmw pin code s) :=
  ((StaysWithinReach.refl s).memRead (withinReach_memRead_fselAddr hc hp)).memWrite
    (withinReach_memWrite_fselAddr hc hp _)

theorem answersWithinReach_execGset {pin : Nat} {value : Bool} {s t : State} (hc : s.cfg.Ok)
    (h : execGset pin value s = .next t) : AnswersWithinReach s t := by
  obtain ⟨hp, rfl⟩ | ⟨-, rfl⟩ := execGset_next h
  · exact ((StaysWithinReach.refl s).levelWrite hc (pinValid_iff.mp hp) value).deliver _
  · exact .raise s _

theorem answersWithinReach_execGget {pin : Nat} {s t : State} (hc : s.cfg.Ok) (h : execGget pin s = .next t) :
    AnswersWithinReach s t := by
  obtain ⟨hp, rfl⟩ | ⟨-, rfl⟩ := execGget_next h
  · exact ((StaysWithinReach.refl s).memRead (withinReach_memRead_levAddr hc (pinValid_iff.mp hp))).deliver _
  · exact .raise s _

theorem answersWithinReach_execGdin {pin : Nat} {s t : State} (hc : s.cfg.Ok) (h : execGdin pin s = .next t) :
    AnswersWithinReach s t := by
  obtain ⟨hp, rfl⟩ | ⟨-, rfl⟩ := execGdin_next h
  · exact (staysWithinReach_fselRmw hc (pinValid_iff.mp hp) _).deliver _
  · exact .raise s _

theorem answersWithinReach_execGdout {pin : Nat} {value : Bool} {s t : State} (hc : s.cfg.Ok)
    (h : execGdout pin value s = .next t) : AnswersWithinReach s t := by
  obtain ⟨hp, rfl⟩ | ⟨-, rfl⟩ := execGdout_next h
  · have hpin := pinValid_iff.mp hp
    exact ((staysWithinReach_fselRmw hc hpin _).levelWrite hc hpin value).deliver _
  · exact .raise s _

/-- Settles O51: a sensor command reads its own block, and a GPIO command's pin check keeps the words it computes inside
theirs. -/
theorem transactionsStayWithinReach : Obligations.TransactionsStayWithinReach := by
  intro s t i hc h
  cases i with
  | rdcal => exact answersWithinReach_execRdcal h
  | rdraw => exact answersWithinReach_execRdraw h
  | cmpt raw => exact answersWithinReach_execCmpt h
  | cmpp raw => exact answersWithinReach_execCmpp h
  | gset pin value => exact answersWithinReach_execGset hc h
  | gget pin => exact answersWithinReach_execGget hc h
  | gdin pin => exact answersWithinReach_execGdin hc h
  | gdout pin value => exact answersWithinReach_execGdout hc h

end Sys2Proof.Machine
end

section
/-! What the bank transactions and the GPIO commands do to FaithfulBank's bytes (R48, R55, R56). -/
namespace Sys2Proof.Machine

/-! ### The bank around one transaction -/

/-- A read only lets the other agents' writes in. -/
@[simp] theorem Env.afterMemRead_bankMem (e : Env) (c : Config) (off : Word) :
    (e.afterMemRead c off).bankMem = (e.interfere c).bankMem := by
  rw [Env.afterMemRead, Env.bankAnswer_spec]

/-- A write comes after the other agents' writes. -/
theorem Env.afterMemWrite_bankMem {e : Env} (hb : e.bank = .faithful) (c : Config) (off v : Word) :
    (e.afterMemWrite c off v).bankMem = bankPut c (e.interfere c).bankMem ⟨off, v⟩ := by
  rw [Env.afterMemWrite, Env.bankUpdate_faithful (by simpa using hb)]
  rfl

@[simp] theorem Env.interfere_others (e : Env) (c : Config) : (e.interfere c).others = e.others.tail := by
  rw [Env.interfere_spec]

@[simp] theorem Env.afterMemRead_others (e : Env) (c : Config) (off : Word) :
    (e.afterMemRead c off).others = e.others.tail := by
  rw [Env.afterMemRead, Env.bankAnswer_spec]
  exact Env.interfere_others e c

@[simp] theorem Env.afterMemWrite_others (e : Env) (c : Config) (off v : Word) :
    (e.afterMemWrite c off v).others = e.others.tail := by
  simp [Env.afterMemWrite]

/-- No other agent writes before this transaction. -/
theorem Env.interfere_bankMem_of_quiet {e : Env} {rest : List (List BankWrite)} (h : e.others = [] :: rest)
    (c : Config) : (e.interfere c).bankMem = e.bankMem := by
  simp [Env.interfere, h, Env.bankUpdate_nil]

theorem Env.Exclusive.interfere_bankMem {e : Env} (h : e.Exclusive) (c : Config) :
    (e.interfere c).bankMem = e.bankMem := by
  rw [Env.interfere_exclusive h]

/-- The word read of a function-select word is the one kept after the other agents' writes. -/
theorem State.memRead_fselAddr_faithful {s : State} (hc : s.cfg.Ok) (hb : s.env.bank = .faithful) {pin : Nat}
    (hp : pin < pinCount) :
    (s.memRead (fselAddr s.cfg pin)).1 =
      (s.env.interfere s.cfg).bankMem.load32 (fselByte s.cfg (fselWord pin)) :=
  congrArg Prod.fst (Env.bankAnswer_faithful (by simpa using hb) (bankGet_fselAddr hc hp _))

/-! ### Exclusive access goes on -/

theorem FaithfulExclusive.memRead {s : State} (h : FaithfulExclusive s) (off : Word) :
    FaithfulExclusive (s.memRead off).2 where
  cfg := h.cfg
  faithful := by simpa using h.faithful
  wf := Env.afterMemRead_wf h.wf s.cfg off
  exclusive ws hws := h.exclusive ws (List.mem_of_mem_tail (by simpa using hws))

theorem FaithfulExclusive.memWrite {s : State} (h : FaithfulExclusive s) (off v : Word) :
    FaithfulExclusive (s.memWrite off v) where
  cfg := h.cfg
  faithful := by simpa using h.faithful
  wf := Env.afterMemWrite_wf h.wf s.cfg off v
  exclusive ws hws := h.exclusive ws (List.mem_of_mem_tail (by simpa using hws))

theorem FaithfulExclusive.fselRmw {s : State} (h : FaithfulExclusive s) (pin : Nat) (code : Word) :
    FaithfulExclusive (fselRmw pin code s) :=
  (h.memRead _).memWrite _ _

theorem FaithfulExclusive.memRead_bankMem {s : State} (h : FaithfulExclusive s) (off : Word) :
    (s.memRead off).2.env.bankMem = s.env.bankMem := by
  rw [State.memRead_env, Env.afterMemRead_bankMem, h.exclusive.interfere_bankMem]

theorem FaithfulExclusive.memWrite_bankMem {s : State} (h : FaithfulExclusive s) (off v : Word) :
    (s.memWrite off v).env.bankMem = bankPut s.cfg s.env.bankMem ⟨off, v⟩ := by
  rw [State.memWrite_faithful h.faithful h.exclusive]

/-! ### One word of the bank written -/

/-- The level word that GSET leaves (R135, R56). -/
def levelInsert (old : Word) (pin : Nat) (value : Bool) : Word :=
  if value then old ||| mask1 pin else old &&& ~~~(mask1 pin)

/-- Between `s` and `t` the bank's word at byte `a` became `w`, and no other byte changed. -/
structure WritesWord (s t : State) (a : Nat) (w : Word) : Prop where
  word : t.env.bankMem.load32 a = w
  frame : bankSameOutside s t a

theorem writesWord_of_store32 {s t : State} (hwf : s.env.bankMem.wf) {a : Nat} {w : Word}
    (h : t.env.bankMem = s.env.bankMem.store32 a w) : WritesWord s t a w where
  word := by rw [h, Memory.load32_store32_same hwf]
  frame x hx := by rw [h, Memory.get_store32 hwf, if_neg hx]

/-- A word that shares no byte with the one written stays. -/
theorem WritesWord.load32_of_disjoint {s t : State} {a : Nat} {w : Word} (h : WritesWord s t a w) {b : Nat}
    (hd : rangesDisjoint a 4 b 4) : t.env.bankMem.load32 b = s.env.bankMem.load32 b := by
  have hbyte (k : Nat) (hk : k < 4) : t.env.bankMem.get (b + k) = s.env.bankMem.get (b + k) :=
    h.frame _ (by rcases hd with hd | hd <;> omega)
  have h0 := hbyte 0 (by decide)
  rw [Nat.add_zero] at h0
  simp only [Memory.load32, h0, hbyte 1 (by decide), hbyte 2 (by decide), hbyte 3 (by decide)]

theorem FaithfulExclusive.writesWord_levelWrite {s : State} (h : FaithfulExclusive s) {pin : Nat}
    (hp : pin < pinCount) (value : Bool) :
    WritesWord s (levelWrite pin value s) (levelByte s.cfg (levelWord pin))
      (levelInsert (s.env.bankMem.load32 (levelByte s.cfg (levelWord pin))) pin value) := by
  refine writesWord_of_store32 h.wf ((h.memWrite_bankMem _ _).trans ?_)
  cases value with
  | true => exact bankPut_setAddr h.cfg hp _ _
  | false => exact bankPut_clrAddr h.cfg hp _ _

/-- What a read-modify-write stores comes from the word it read; other agents' writes before its own write reach the bytes
around that word alone (R53, R137). -/
theorem fselRmw_bankMem {s : State} (hc : s.cfg.Ok) (hb : s.env.bank = .faithful) {pin : Nat} (hp : pin < pinCount)
    (code : Word) :
    (fselRmw pin code s).env.bankMem =
      ((s.memRead (fselAddr s.cfg pin)).2.env.interfere s.cfg).bankMem.store32 (fselByte s.cfg (fselWord pin))
        (fselInsert (s.memRead (fselAddr s.cfg pin)).1 pin code) :=
  (Env.afterMemWrite_bankMem (by simpa using hb) _ _ _).trans (bankPut_fselAddr hc hp _ _)

theorem FaithfulExclusive.writesWord_fselRmw {s : State} (h : FaithfulExclusive s) {pin : Nat} (hp : pin < pinCount)
    (code : Word) :
    WritesWord s (Machine.fselRmw pin code s) (fselByte s.cfg (fselWord pin))
      (fselInsert (s.env.bankMem.load32 (fselByte s.cfg (fselWord pin))) pin code) := by
  refine writesWord_of_store32 h.wf ((fselRmw_bankMem h.cfg h.faithful hp code).trans ?_)
  rw [(h.memRead _).exclusive.interfere_bankMem, h.memRead_bankMem,
    State.memRead_fselAddr_faithful h.cfg h.faithful hp, h.exclusive.interfere_bankMem]

/-! ### The GPIO commands on a valid pin -/

theorem execGset_valid {pin : Nat} (hp : pin < pinCount) (value : Bool) (s : State) :
    execGset pin value s = .next ((levelWrite pin value s).respond 0#32 0#32) := by
  rw [execGset, if_pos (pinValid_iff.mpr hp)]

theorem execGget_valid {pin : Nat} (hp : pin < pinCount) (s : State) : execGget pin s = .next (ggetFinish pin s) := by
  rw [execGget, if_pos (pinValid_iff.mpr hp)]

theorem execGdin_valid {pin : Nat} (hp : pin < pinCount) (s : State) :
    execGdin pin s = .next ((fselRmw pin fselInput s).respond 0#32 0#32) := by
  rw [execGdin, if_pos (pinValid_iff.mpr hp)]

theorem execGdout_valid {pin : Nat} (hp : pin < pinCount) (value : Bool) (s : State) :
    execGdout pin value s = .next ((levelWrite pin value (fselRmw pin fselOutput s)).respond 0#32 0#32) := by
  rw [execGdout, if_pos (pinValid_iff.mpr hp)]

/-- Settles O42: each command writes at most its function-select word and its level word, which share no byte. -/
theorem faithfulBankByteFrames : Obligations.FaithfulBankByteFrames := by
  intro s pin value h hpin
  have hp : pin < pinCount := hpin
  refine ⟨fun t ht => ?_, fun t ht => ?_, fun t ht => ?_, fun t ht => ?_⟩
  · cases (execGset_valid hp value s).symm.trans ht
    obtain ⟨hword, hframe⟩ := h.writesWord_levelWrite hp value
    exact ⟨hword, hframe⟩
  · cases (execGget_valid hp s).symm.trans ht
    exact fun a => congrArg (Memory.get · a) (h.memRead_bankMem _)
  · cases (execGdin_valid hp s).symm.trans ht
    obtain ⟨hword, hframe⟩ := h.writesWord_fselRmw hp fselInput
    exact ⟨hword, hframe⟩
  · cases (execGdout_valid hp value s).symm.trans ht
    have hfsel := h.writesWord_fselRmw hp fselOutput
    have hlevel := (h.fselRmw pin fselOutput).writesWord_levelWrite hp value
    have hd : rangesDisjoint (fselByte s.cfg (fselWord pin)) 4 (levelByte s.cfg (levelWord pin)) 4 :=
      fsel_level_disjoint h.cfg (fselWord_lt hp) (levelWord_lt hp)
    refine ⟨(hlevel.load32_of_disjoint hd.symm).trans hfsel.word, hlevel.word.trans ?_,
      fun a ha ha' => (hlevel.frame a ha').trans (hfsel.frame a ha)⟩
    exact congrArg (levelInsert · pin value) (hfsel.load32_of_disjoint hd)

/-! ### Without exclusive access -/

/-- Whatever other agents write in between, a read-modify-write stores the word it read with the field replaced (R53). -/
theorem load32_fselRmw {s : State} (hc : s.cfg.Ok) (hb : s.env.bank = .faithful) (hwf : s.env.bankMem.wf) {pin : Nat}
    (hp : pin < pinCount) (code : Word) :
    (fselRmw pin code s).env.bankMem.load32 (fselByte s.cfg (fselWord pin)) =
      fselInsert (s.memRead (fselAddr s.cfg pin)).1 pin code := by
  have hread : (s.memRead (fselAddr s.cfg pin)).2.env.bankMem.wf := Env.afterMemRead_wf hwf s.cfg _
  rw [fselRmw_bankMem hc hb hp, Memory.load32_store32_same (Env.interfere_wf hread s.cfg)]

/-- Settles O46: the word read is the one kept before the other agent's write, and the word stored is made from it. -/
theorem readModifyWriteLosesTheOtherUpdate : Obligations.ReadModifyWriteLosesTheOtherUpdate := by
  intro s pin x rest hc hb hwf hpin hothers
  have hp : pin < pinCount := hpin
  have hread : (s.memRead (fselAddr s.cfg pin)).1 = s.env.bankMem.load32 (fselByte s.cfg (fselWord pin)) := by
    rw [State.memRead_fselAddr_faithful hc hb hp, Env.interfere_bankMem_of_quiet hothers]
  exact ⟨_, execGdin_valid hp s,
    (load32_fselRmw hc hb hwf hp fselInput).trans (congrArg (fselInsert · pin fselInput) hread)⟩

end Sys2Proof.Machine
end

section
/-! Decoding and encoding are inverse to each other (R61 to R64, R72). -/
namespace Sys2Proof

/-! ### From an instruction to its word and back -/

theorem pinFits_iff {pin : Nat} : pinFits pin = true ↔ pin < 2 ^ 20 := decide_eq_true_iff

theorem unusedBitsClear_encode (i : Instr) : i.op.variant.unusedBitsClear (encode i) = true := by
  obtain ⟨-, -, hv, harg⟩ := Laws.EncodedFields.all i
  cases i <;> simp [Variant.unusedBitsClear, Instr.op, Op.variant, hv, harg, Instr.vBit, Instr.argBits]

/-- The bit that `V` carries is the value it came from. -/
theorem ofBool_beq_one (value : Bool) : (BitVec.ofBool value == 1#1) = value := by cases value <;> rfl

/-- The operand that `ARG` carries is the pin it came from, as a pin of a well-formed instruction fits. -/
theorem toNat_ofNat_of_pinFits {pin : Nat} (h : pinFits pin = true) : (BitVec.ofNat 20 pin).toNat = pin := by
  rw [BitVec.toNat_ofNat, Nat.mod_eq_of_lt (pinFits_iff.mp h)]

theorem withOperands_encode {i : Instr} (h : i.wellFormed = true) : i.op.withOperands (encode i) = i := by
  obtain ⟨-, -, hv, harg⟩ := Laws.EncodedFields.all i
  cases i with
  | rdcal => rfl
  | rdraw => rfl
  | cmpt raw => exact congrArg Instr.cmpt harg
  | cmpp raw => exact congrArg Instr.cmpp harg
  | gset pin value =>
    simp [Instr.op, Op.withOperands, hv, harg, Instr.vBit, Instr.argBits, ofBool_beq_one, toNat_ofNat_of_pinFits h]
  | gget pin => simp [Instr.op, Op.withOperands, harg, Instr.argBits, toNat_ofNat_of_pinFits h]
  | gdin pin => simp [Instr.op, Op.withOperands, harg, Instr.argBits, toNat_ofNat_of_pinFits h]
  | gdout pin value =>
    simp [Instr.op, Op.withOperands, hv, harg, Instr.vBit, Instr.argBits, ofBool_beq_one, toNat_ofNat_of_pinFits h]

/-- Settles O6: the encoded fields pass the decoder's three checks and hold the operands. -/
theorem decodeOfEncodeIsTheInstruction : Obligations.DecodeOfEncodeIsTheInstruction := by
  intro i h
  obtain ⟨hopc, hrsv, -, -⟩ := Laws.EncodedFields.all i
  exact (decode_eq_legal_iff _ _).mpr ⟨hrsv, i.op, hopc, unusedBitsClear_encode i, (withOperands_encode h).symm⟩

/-! ### From a word to its instruction and back -/

@[simp] theorem op_withOperands (o : Op) (w : Word) : (o.withOperands w).op = o := by cases o <;> rfl

theorem wellFormed_withOperands (o : Op) (w : Word) : (o.withOperands w).wellFormed = true := by
  have hfits : pinFits (argField w).toNat = true := pinFits_iff.mpr (argField w).isLt
  cases o <;> simp [Op.withOperands, Instr.wellFormed, hfits]

/-- A single bit is the value read off it. -/
theorem ofBool_beq (v : BitVec 1) : BitVec.ofBool (v == 1#1) = v := by
  obtain rfl | rfl := BitVec.eq_zero_or_eq_one v <;> rfl

theorem vBit_withOperands {o : Op} {w : Word} (h : o.variant.unusedBitsClear w = true) :
    (o.withOperands w).vBit = vField w := by
  cases o <;> simp_all [Op.variant, Variant.unusedBitsClear, Op.withOperands, Instr.vBit, ofBool_beq]

theorem argBits_withOperands {o : Op} {w : Word} (h : o.variant.unusedBitsClear w = true) :
    (o.withOperands w).argBits = argField w := by
  cases o <;> simp_all [Op.variant, Variant.unusedBitsClear, Op.withOperands, Instr.argBits]

/-- Settles O7: each field of the word is the encoder's, `RSV` and the unused bits because decoding found them 0. -/
theorem encodeOfDecodeIsTheWord : Obligations.EncodeOfDecodeIsTheWord := by
  intro w i h
  obtain ⟨hrsv, o, hopc, hclear, rfl⟩ := (decode_eq_legal_iff w i).mp h
  refine ⟨wellFormed_withOperands o w, ?_⟩
  rw [encode, op_withOperands, vBit_withOperands hclear, argBits_withOperands hclear, ← hopc, ← hrsv,
    packFields_fields]

/-- Settles O8: eleven closed evaluations of the decoder. -/
theorem vectorWordsDecode : Obligations.VectorWordsDecode := by
  unfold Obligations.VectorWordsDecode
  decide

/-! ### The match and mask table (R62, R63) -/

/-- What the mask of a variant keeps of `V` (R62). -/
def Variant.vMask : Variant → BitVec 1
  | .n => 1#1
  | .r => 1#1
  | .p => 1#1
  | .pv => 0#1

/-- What the mask of a variant keeps of `ARG` (R62). -/
def Variant.argMask : Variant → BitVec 20
  | .n => 0xFFFFF#20
  | .r => 0#20
  | .p => 0#20
  | .pv => 0#20

theorem Variant.mask_eq (v : Variant) : v.mask = packFields 0xFF#8 7#3 v.vMask v.argMask := by cases v <;> rfl

theorem Op.pattern_eq (o : Op) : o.pattern = packFields o.code 0#3 0#1 0#20 := by cases o <;> rfl

theorem Variant.unusedBitsClear_iff (v : Variant) (w : Word) :
    v.unusedBitsClear w = true ↔ vField w &&& v.vMask = 0#1 ∧ argField w &&& v.argMask = 0#20 := by
  have hv : vField w &&& 1#1 = vField w := BitVec.and_allOnes
  have harg : argField w &&& 0xFFFFF#20 = argField w := BitVec.and_allOnes
  cases v <;> simp [Variant.unusedBitsClear, Variant.vMask, Variant.argMask, hv, harg]

theorem packFields_and (a a' : BitVec 8) (b b' : BitVec 3) (c c' : BitVec 1) (d d' : BitVec 20) :
    packFields a b c d &&& packFields a' b' c' d' = packFields (a &&& a') (b &&& b') (c &&& c') (d &&& d') := by
  refine BitVec.and_append.trans ?_
  rw [BitVec.and_append, BitVec.and_append]
  rfl

theorem packFields_inj {a a' : BitVec 8} {b b' : BitVec 3} {c c' : BitVec 1} {d d' : BitVec 20} :
    packFields a b c d = packFields a' b' c' d' ↔ a = a' ∧ b = b' ∧ c = c' ∧ d = d' := by
  refine ⟨fun h => ?_, by rintro ⟨rfl, rfl, rfl, rfl⟩; rfl⟩
  exact ⟨by simpa using congrArg opcField h, by simpa using congrArg rsvField h, by simpa using congrArg vField h,
    by simpa using congrArg argField h⟩

/-- A word matches a row under its mask exactly when its fields pass the decoder's checks for that row. -/
theorem mask_eq_pattern_iff (o : Op) (w : Word) :
    w &&& o.variant.mask = o.pattern ↔
      opcField w = o.code ∧ rsvField w = 0#3 ∧ o.variant.unusedBitsClear w = true := by
  have hopc : opcField w &&& 0xFF#8 = opcField w := BitVec.and_allOnes
  have hrsv : rsvField w &&& 7#3 = rsvField w := BitVec.and_allOnes
  conv_lhs => rw [← packFields_fields w]
  rw [Variant.mask_eq, Op.pattern_eq, packFields_and, packFields_inj, hopc, hrsv, Variant.unusedBitsClear_iff]

theorem Op.code_inj {o o' : Op} (h : o.code = o'.code) : o = o' :=
  Option.some.inj (by rw [← opOfCode_code o, h, opOfCode_code])

theorem decode_op_iff (w : Word) (o : Op) :
    (∃ i, decode w = .legal i ∧ i.op = o) ↔ w &&& o.variant.mask = o.pattern := by
  rw [mask_eq_pattern_iff]
  constructor
  · rintro ⟨i, hi, rfl⟩
    obtain ⟨hrsv, o, hopc, hclear, rfl⟩ := (decode_eq_legal_iff w i).mp hi
    rw [op_withOperands]
    exact ⟨hopc, hrsv, hclear⟩
  · rintro ⟨hopc, hrsv, hclear⟩
    exact ⟨o.withOperands w, (decode_eq_legal_iff _ _).mpr ⟨hrsv, o, hopc, hclear, rfl⟩, op_withOperands o w⟩

/-- Settles O5: two rows that one word matches have the same code. -/
theorem matchMaskTableSelectsTheCommand : Obligations.MatchMaskTableSelectsTheCommand := by
  refine ⟨rfl, decode_op_iff, fun w o o' h h' => Op.code_inj ?_⟩
  exact ((mask_eq_pattern_iff o w).mp h).1.symm.trans ((mask_eq_pattern_iff o' w).mp h').1

end Sys2Proof
end

section
/-! Which words are commands, and what the assembler's table of R67 gives: both read off the match and mask table. -/
namespace Sys2Proof.Machine

/-! ### Words that no row selects (R65) -/

theorem selects_iff (o : Op) (w : Word) :
    o.selects w = true ↔ opcField w = o.code ∧ rsvField w = 0#3 ∧ o.variant.unusedBitsClear w = true :=
  beq_iff_eq.trans (mask_eq_pattern_iff o w)

theorem selects_eq_false {o : Op} {w : Word}
    (h : opcField w = o.code → rsvField w = 0#3 → o.variant.unusedBitsClear w = true → False) :
    o.selects w = false := by
  refine Bool.eq_false_iff.mpr fun hs => ?_
  obtain ⟨hopc, hrsv, hclear⟩ := (selects_iff o w).mp hs
  exact h hopc hrsv hclear

theorem decode_illegal_of_selects_eq_false {w : Word} (h : ∀ o : Op, o.selects w = false) :
    ∃ why, decode w = .illegal why := by
  cases hd : decode w with
  | illegal why => exact ⟨why, rfl⟩
  | legal i =>
    have hs : i.op.selects w = true := beq_iff_eq.mpr ((decode_op_iff w i.op).mp ⟨i, hd, rfl⟩)
    exact absurd hs (Bool.eq_false_iff.mp (h i.op))

/-- RDCAL and RDRAW take no operand (R63). -/
theorem variant_eq_n {o : Op} (h : o.code = 0x01#8 ∨ o.code = 0x02#8) : o.variant = .n := by
  revert h
  cases o <;> decide

/-- CMPT, CMPP, GGET and GDIN take no value (R63). -/
theorem variant_ne_pv {o : Op} (h : o.code = 0x03#8 ∨ o.code = 0x04#8 ∨ o.code = 0x11#8 ∨ o.code = 0x12#8) :
    o.variant ≠ .pv := by
  revert h
  cases o <;> decide

theorem unusedBitsClear_n {w : Word} (h : Variant.n.unusedBitsClear w = true) : vField w = 0#1 ∧ argField w = 0#20 := by
  simpa [Variant.unusedBitsClear] using h

/-- Only a variant with a value lets `V` be 1 (R62). -/
theorem variant_eq_pv_of_vField {v : Variant} {w : Word} (h : v.unusedBitsClear w = true) (hv : vField w = 1#1) :
    v = .pv := by
  cases v <;> simp_all [Variant.unusedBitsClear]

/-- An error that ends a command before it has done anything: the word, the response and their two events. -/
theorem State.accept_raise (s : State) (w : Word) (rest : List Word) (e : Status) :
    (s.accept w rest).raise e =
      { s with
        hostCommands := rest
        rsp := some ⟨e, 0#32, 0#32⟩
        trace := s.trace ++ [.command w, .response ⟨e, 0#32, 0#32⟩] } := by
  simp [State.raise, State.deliver, State.accept]

/-- Settles O4: a word that no row selects does not decode, and each listed word fails one of a row's three checks. -/
theorem wordsOutsideTheTableAreIllegal : Obligations.WordsOutsideTheTableAreIllegal := by
  refine ⟨fun s w rest hc hno => ?_, fun w hopc o => ?_, fun w hrsv o => ?_, fun w hopc hused o => ?_,
    fun w hopc hv o => ?_, fun o => ?_, fun o => ?_, fun o => ?_⟩
  · obtain ⟨why, hd⟩ := decode_illegal_of_selects_eq_false hno
    rw [step_illegal hc hd, State.accept_raise]
  · exact selects_eq_false fun h _ _ => hopc o h
  · exact selects_eq_false fun _ h _ => hrsv h
  · refine selects_eq_false fun h _ hclear => ?_
    obtain ⟨hv, harg⟩ := unusedBitsClear_n (variant_eq_n (h ▸ hopc) ▸ hclear)
    simp [hv, harg] at hused
  · exact selects_eq_false fun h _ hclear => variant_ne_pv (h ▸ hopc) (variant_eq_pv_of_vField hclear hv)
  · cases o <;> decide
  · cases o <;> decide
  · cases o <;> decide

/-! ### The assembler's table (R67) -/

theorem packFields_or (a a' : BitVec 8) (b b' : BitVec 3) (c c' : BitVec 1) (d d' : BitVec 20) :
    packFields a b c d ||| packFields a' b' c' d' = packFields (a ||| a') (b ||| b') (c ||| c') (d ||| d') := by
  refine BitVec.or_append.trans ?_
  rw [BitVec.or_append, BitVec.or_append]
  rfl

/-- An operand that fits stands in `ARG`. -/
theorem ofNat_eq_packFields {x : Nat} (hx : x ≤ 0xFFFFF) :
    BitVec.ofNat 32 x = packFields 0#8 0#3 0#1 (BitVec.ofNat 20 x) := by
  apply BitVec.eq_of_toNat_eq
  rw [packFields_toNat]
  simp only [BitVec.toNat_ofNat]
  omega

/-- A value moved up by 20 stands in `V`. -/
theorem value_shiftLeft_eq_packFields (v : Bool) :
    BitVec.ofNat 32 v.toNat <<< 20 = packFields 0#8 0#3 (BitVec.ofBool v) 0#20 := by
  cases v <;> rfl

theorem asmArg_pattern (o : Op) {x : Nat} (hx : x ≤ 0xFFFFF) :
    asmArg o.pattern x = some (packFields o.code 0#3 0#1 (BitVec.ofNat 20 x)) := by
  rw [asmArg, if_pos hx, Op.pattern_eq, ofNat_eq_packFields hx, packFields_or]
  simp

theorem asmPinValue_pattern (o : Op) {x : Nat} (hx : x ≤ 0xFFFFF) (v : Bool) :
    asmPinValue o.pattern x v.toNat = some (packFields o.code 0#3 (BitVec.ofBool v) (BitVec.ofNat 20 x)) := by
  rw [asmPinValue, if_pos ⟨hx, Bool.toNat_le v⟩, Op.pattern_eq, value_shiftLeft_eq_packFields, ofNat_eq_packFields hx,
    packFields_or, packFields_or]
  simp

theorem asmArg_eq_none {x : Nat} (hx : x > 0xFFFFF) (base : Word) : asmArg base x = none :=
  if_neg (Nat.not_le.mpr hx)

theorem asmPinValue_eq_none {pin v : Nat} (h : pin > 0xFFFFF ∨ v > 1) (base : Word) : asmPinValue base pin v = none :=
  if_neg (by omega)

/-- Settles O9: the table's bases are the match values, and the operands fall into the fields that the bases leave 0. -/
theorem assemblerGivesTheEncodedWord : Obligations.AssemblerGivesTheEncodedWord := by
  refine ⟨rfl, rfl, fun x hx => ⟨asmArg_pattern .cmpt hx, asmArg_pattern .cmpp hx, asmArg_pattern .gget hx,
    asmArg_pattern .gdin hx, fun v => ⟨asmPinValue_pattern .gset hx v, asmPinValue_pattern .gdout hx v⟩⟩,
    fun x hx m => ⟨?_, fun v => ?_⟩, fun v hv m x => ?_⟩
  · simp [assembleOp, asmArg_eq_none hx]
  · simp [assembleOp, asmPinValue_eq_none (.inl hx)]
  · simp [assembleOp, asmPinValue_eq_none (.inr hv)]

end Sys2Proof.Machine
end

section
/-! The step on a presented word: what it runs, and two host procedures over it. -/
namespace Sys2Proof.Machine

/-- Settles O3: the word is taken, recorded and decoded, and the step is its command. -/
theorem stepRunsTheDecodedCommand : Obligations.StepRunsTheDecodedCommand := fun _ _ _ _ hc hd => step_legal hc hd

/-! ### A host index that is no pin (R64) -/

theorem hostPin_le (index : Int) : hostPin index ≤ 0xFFFFF := by
  unfold hostPin
  split <;> omega

theorem pinFits_hostPin (index : Int) : pinFits (hostPin index) = true :=
  pinFits_iff.mpr (Nat.lt_succ_of_le (hostPin_le index))

theorem hostPin_of_valid {index : Int} (h : 0 ≤ index ∧ index < 54) : (hostPin index : Int) = index := by
  rw [hostPin, if_pos (by omega)]
  omega

theorem pinValid_hostPin {index : Int} (h : ¬(0 ≤ index ∧ index < 54)) : pinValid (hostPin index) = false := by
  have hge : 54 ≤ hostPin index := by
    unfold hostPin
    split <;> omega
  exact decide_eq_false (Nat.not_lt.mpr hge)

/-- The pin check precedes everything else a GPIO command does (R130). -/
theorem exec_invalidPin {pin : Nat} {value : Bool} {i : Instr}
    (hi : i = .gset pin value ∨ i = .gget pin ∨ i = .gdin pin ∨ i = .gdout pin value) (hp : pinValid pin = false)
    (s : State) : exec i s = .next (s.raise .invalidPin) := by
  obtain rfl | rfl | rfl | rfl := hi <;> simp [exec, execGset, execGget, execGdin, execGdout, hp]

/-- Settles O37: what the adapter presents fits `ARG`, so the decoder gives the command back; its pin check fails. -/
theorem overflowedIndicesEndInvalidPin : Obligations.OverflowedIndicesEndInvalidPin := by
  intro s index value i rest hi hc
  refine ⟨hostPin_of_valid, fun hno => ?_⟩
  have hwf : i.wellFormed = true := by obtain rfl | rfl | rfl | rfl := hi <;> exact pinFits_hostPin index
  rw [step_legal hc (decodeOfEncodeIsTheInstruction i hwf), exec_invalidPin hi (pinValid_hostPin hno),
    State.accept_raise]

/-! ### MEASURE (R68) -/

/-- Presenting the word of a well-formed instruction runs the instruction once the word is recorded. -/
theorem presentAndRun_encode {i : Instr} (h : i.wellFormed = true) (s : State) :
    presentAndRun (encode i) s = exec i (s.log (.command (encode i))) := by
  simp [presentAndRun, step, State.takeCommand_present, decodeOfEncodeIsTheInstruction i h]

theorem execRdraw_of_env {s : State} {o : BusOutcome} {e : Env}
    (h : s.env.busRead s.cfg.dataBase rawLen = some (o, e)) :
    execRdraw s = .next (rdrawFinish o ((s.setEnv e).log (.busRead s.cfg.dataBase rawLen o))) := by
  simp [execRdraw, State.busRead_of_env h]

theorem presentAndRun_cmpt {s : State} (hv : s.block.calValid = true) (raw : Count) :
    presentAndRun (encode (.cmpt raw)) s = .next (cmptFinish raw (s.log (.command (encode (.cmpt raw))))) := by
  rw [presentAndRun_encode rfl]
  simp [exec, execCmpt, hv]

theorem presentAndRun_cmpp {s : State} (hv : s.block.calValid = true) (hq : s.block.tseq ≠ .unset) (raw : Count) :
    presentAndRun (encode (.cmpp raw)) s = .next (cmppFinish raw (s.log (.command (encode (.cmpp raw))))) := by
  rw [presentAndRun_encode rfl]
  simp [exec, execCmpp, hv, hq]

/-- A count survives its way through a response word (R68, R102). -/
theorem countOf_zextCount (c : Count) : countOf (zextCount c) = c := by
  apply BitVec.eq_of_toNat_eq
  have := c.isLt
  simp only [countOf, zextCount, BitVec.extractLsb'_toNat, BitVec.toNat_setWidth]
  omega

/-- After a CMPT the block is calibrated and `FRESH`, so the CMPP that follows runs to its end. -/
theorem measureCompensate_calibrated {s : State} (hv : s.block.calValid = true) (adcT adcP : Count) :
    measureCompensate adcT adcP s =
      .next (cmppFinish adcP
        ((cmptFinish adcT (s.log (.command (encode (.cmpt adcT))))).log (.command (encode (.cmpp adcP))))) := by
  rw [measureCompensate, presentAndRun_cmpt hv]
  exact presentAndRun_cmpp (s := cmptFinish adcT (s.log _)) hv (by simp [cmptFinish]) adcP

/-- The RDRAW presented in `s` has had its answer `o`, with the environment left at `e`. -/
def State.rdrawAnswered (s : State) (o : BusOutcome) (e : Env) : State :=
  ((s.log (.command (encode .rdraw))).setEnv e).log (.busRead s.cfg.dataBase rawLen o)

theorem presentAndRun_rdraw {s : State} {o : BusOutcome} {e : Env}
    (h : s.env.busRead s.cfg.dataBase rawLen = some (o, e)) :
    presentAndRun (encode .rdraw) s = .next (rdrawFinish o (s.rdrawAnswered o e)) :=
  (presentAndRun_encode rfl s).trans (execRdraw_of_env h)

theorem runMeasure_rdraw_ok {s : State} {b : List Byte} {e : Env}
    (h : s.env.busRead s.cfg.dataBase rawLen = some (.ok b, e)) :
    runMeasure s = measureCompensate (asmRaw b).adcTemperature (asmRaw b).adcPressure
      (rdrawFinish (.ok b) (s.rdrawAnswered (.ok b) e)) := by
  rw [runMeasure, presentAndRun_rdraw h]
  simp [rdrawFinish, countOf_zextCount]

theorem rdrawFinish_not_ok {o : BusOutcome} (h : ∀ b, o ≠ .ok b) (s : State) : rdrawFinish o s = s.raise .ioError := by
  cases o with
  | ok b => exact absurd rfl (h b)
  | short _ => rfl
  | fail => rfl

theorem runMeasure_rdraw_not_ok {s : State} {o : BusOutcome} {e : Env}
    (h : s.env.busRead s.cfg.dataBase rawLen = some (o, e)) (ho : ∀ b, o ≠ .ok b) :
    runMeasure s = .next ((s.rdrawAnswered o e).raise .ioError) := by
  rw [runMeasure, presentAndRun_rdraw h, rdrawFinish_not_ok ho]
  simp

/-- Settles O53: the three commands in turn, or the RDRAW alone when it fails. -/
theorem measureCompensatesOneSample : Obligations.MeasureCompensatesOneSample := by
  refine ⟨fun s b e tp p hv hread htp hp => ?_, fun s o e hread ho => ?_⟩
  · subst htp hp
    have hphase : Tseq.fresh.afterCmpp = .consumed := rfl
    have hstale : zextBit Tseq.fresh.stale = 0#32 := rfl
    rw [runMeasure_rdraw_ok hread, measureCompensate_calibrated (by exact hv)]
    simp [cmppFinish, cmptFinish, rdrawFinish, State.rdrawAnswered, State.respond, State.deliver, State.log,
      State.setEnv, State.setBlock, Block.consumeTFine, Block.storeTFine, hphase, hstale, rawLen]
  · rw [runMeasure_rdraw_not_ok hread ho]
    simp [State.rdrawAnswered, State.raise, State.deliver, State.log, State.setEnv, rawLen]

end Sys2Proof.Machine
end

section
/-! Every command ends with one response, after at most three transactions (R69, R160, R202). -/
namespace Sys2Proof.Machine

/-! ### Stretches of a command -/

/-- `t` is reached from `s` by at most `n` transactions, and the host's list is left alone. -/
structure Transacts (n : Nat) (s t : State) : Prop where
  hostCommands : t.hostCommands = s.hostCommands
  events : ∃ txs, t.trace = s.trace ++ txs ∧ txs.length ≤ n ∧ ∀ e ∈ txs, e.isTransaction = true

/-- `t` ends a command begun in `s`: at most three transactions, then the one response, which carries zeros if it is an
error's. -/
def EndsWithOneResponse (s t : State) : Prop :=
  t.hostCommands = s.hostCommands ∧
    ∃ txs r, t.trace = s.trace ++ txs ++ [.response r] ∧ t.rsp = some r ∧ txs.length ≤ 3 ∧
      (∀ e ∈ txs, e.isTransaction = true) ∧ r.Inv

theorem Transacts.refl (s : State) : Transacts 0 s s := ⟨rfl, [], by simp, Nat.le_refl 0, by simp⟩

/-- One more transaction. -/
theorem Transacts.append {n : Nat} {s t u : State} (h : Transacts n s t) {e : Event}
    (hhost : u.hostCommands = t.hostCommands) (htrace : u.trace = t.trace ++ [e]) (he : e.isTransaction = true) :
    Transacts (n + 1) s u := by
  obtain ⟨hh, txs, htr, hlen, htxs⟩ := h
  refine ⟨hhost.trans hh, txs ++ [e], by rw [htrace, htr, List.append_assoc], by simpa using hlen, fun e' he' => ?_⟩
  obtain hmem | hlast := List.mem_append.mp he'
  · exact htxs e' hmem
  · exact List.mem_singleton.mp hlast ▸ he

theorem Transacts.memRead {n : Nat} {s t : State} (h : Transacts n s t) (off : Word) :
    Transacts (n + 1) s (t.memRead off).2 :=
  h.append rfl (State.memRead_trace t off) rfl

theorem Transacts.memWrite {n : Nat} {s t : State} (h : Transacts n s t) (off v : Word) :
    Transacts (n + 1) s (t.memWrite off v) :=
  h.append rfl (State.memWrite_trace t off v) rfl

theorem transacts_busRead {s s' : State} {addr : Byte} {n : Nat} {o : BusOutcome}
    (hread : s.busRead addr n = some (o, s')) : Transacts 1 s s' := by
  obtain ⟨e', -, rfl⟩ := State.busRead_spec hread
  exact (Transacts.refl s).append rfl rfl rfl

theorem Transacts.setBlock {n : Nat} {s t : State} (h : Transacts n s t) (b : Block) : Transacts n s (t.setBlock b) :=
  ⟨h.hostCommands, h.events⟩

theorem Transacts.deliver {n : Nat} {s t : State} (h : Transacts n s t) (hn : n ≤ 3) {r : Response} (hr : r.Inv) :
    EndsWithOneResponse s (t.deliver r) := by
  obtain ⟨hh, txs, htr, hlen, htxs⟩ := h
  exact ⟨hh, txs, r, by rw [State.deliver_trace, htr], rfl, hlen.trans hn, htxs, hr⟩

theorem Transacts.respond {n : Nat} {s t : State} (h : Transacts n s t) (hn : n ≤ 3) (d0 d1 : Word) :
    EndsWithOneResponse s (t.respond d0 d1) :=
  h.deliver hn fun hno => absurd rfl hno

theorem Transacts.raise {n : Nat} {s t : State} (h : Transacts n s t) (hn : n ≤ 3) (e : Status) :
    EndsWithOneResponse s (t.raise e) :=
  h.deliver hn fun _ => ⟨rfl, rfl⟩

/-! ### The commands -/

theorem endsWithOneResponse_raise (s : State) (e : Status) : EndsWithOneResponse s (s.raise e) :=
  (Transacts.refl s).raise (by decide) e

theorem endsWithOneResponse_execRdcal {s t : State} (h : execRdcal s = .next t) : EndsWithOneResponse s t := by
  obtain ⟨o, s', hread, rfl⟩ := execRdcal_next h
  have hs' : Transacts 1 s s' := transacts_busRead hread
  cases o with
  | ok b => exact (hs'.setBlock _).respond (by decide) _ _
  | short _ => exact hs'.raise (by decide) _
  | fail => exact hs'.raise (by decide) _

theorem endsWithOneResponse_execRdraw {s t : State} (h : execRdraw s = .next t) : EndsWithOneResponse s t := by
  obtain ⟨o, s', hread, rfl⟩ := execRdraw_next h
  have hs' : Transacts 1 s s' := transacts_busRead hread
  cases o with
  | ok b => exact hs'.respond (by decide) _ _
  | short _ => exact hs'.raise (by decide) _
  | fail => exact hs'.raise (by decide) _

theorem endsWithOneResponse_execCmpt {raw : Count} {s t : State} (h : execCmpt raw s = .next t) :
    EndsWithOneResponse s t := by
  obtain ⟨-, rfl⟩ | ⟨-, rfl⟩ := execCmpt_next h
  · exact ((Transacts.refl s).setBlock _).respond (by decide) _ _
  · exact endsWithOneResponse_raise s _

theorem endsWithOneResponse_execCmpp {raw : Count} {s t : State} (h : execCmpp raw s = .next t) :
    EndsWithOneResponse s t := by
  obtain ⟨-, -, rfl⟩ | ⟨-, -, rfl⟩ | ⟨-, rfl⟩ := execCmpp_next h
  · exact ((Transacts.refl s).setBlock _).respond (by decide) _ _
  · exact endsWithOneResponse_raise s _
  · exact endsWithOneResponse_raise s _

/-- A GPIO command ends in the answer to its bank transactions or in `InvalidPin`. -/
theorem endsWithOneResponse_pinCheck {n : Nat} {p q : Prop} {s t body : State} {d0 d1 : Word}
    (h : (p ∧ t = body.respond d0 d1) ∨ (q ∧ t = s.raise .invalidPin)) (hbody : Transacts n s body) (hn : n ≤ 3) :
    EndsWithOneResponse s t := by
  obtain ⟨-, rfl⟩ | ⟨-, rfl⟩ := h
  · exact hbody.respond hn d0 d1
  · exact endsWithOneResponse_raise s _

theorem Transacts.levelWrite {n : Nat} {s t : State} (h : Transacts n s t) (pin : Nat) (value : Bool) :
    Transacts (n + 1) s (levelWrite pin value t) :=
  h.memWrite _ _

theorem transacts_fselRmw (pin : Nat) (code : Word) (s : State) : Transacts 2 s (fselRmw pin code s) :=
  ((Transacts.refl s).memRead _).memWrite _ _

theorem exec_endsWithOneResponse {s t : State} (i : Instr) (h : exec i s = .next t) : EndsWithOneResponse s t := by
  cases i with
  | rdcal => exact endsWithOneResponse_execRdcal h
  | rdraw => exact endsWithOneResponse_execRdraw h
  | cmpt raw => exact endsWithOneResponse_execCmpt h
  | cmpp raw => exact endsWithOneResponse_execCmpp h
  | gset pin value =>
    exact endsWithOneResponse_pinCheck (execGset_next h) ((Transacts.refl s).levelWrite pin value) (by decide)
  | gget pin => exact endsWithOneResponse_pinCheck (execGget_next h) ((Transacts.refl s).memRead _) (by decide)
  | gdin pin => exact endsWithOneResponse_pinCheck (execGdin_next h) (transacts_fselRmw pin _ s) (by decide)
  | gdout pin value =>
    exact endsWithOneResponse_pinCheck (execGdout_next h) ((transacts_fselRmw pin _ s).levelWrite pin value) (by decide)

/-- Settles O48: a legal word runs a command, which ends with one response; an illegal word's response is its only
event. -/
theorem everyCommandEndsWithOneResponse : Obligations.EveryCommandEndsWithOneResponse := by
  intro s t w rest hc h
  show EndsWithOneResponse (s.accept w rest) t
  cases hd : decode w with
  | legal i => exact exec_endsWithOneResponse i ((step_legal hc hd).symm.trans h)
  | illegal why =>
    rw [step_illegal hc hd] at h
    cases h
    exact endsWithOneResponse_raise _ _

end Sys2Proof.Machine
end

section
/-! The operands read out of the two sensor blocks: the constants (R80) and the raw counts (R84), as numbers. -/
namespace Sys2Proof.Machine

theorem byteAt_eq_getElem {b : List Byte} {i : Nat} (h : i < b.length) : byteAt b i = b[i] :=
  List.getD_eq_getElem b 0#8 h

/-! ### Constants -/

/-- ParseCal gives each register the constant of its own index (R21, R80). -/
theorem reg_parseCal (b : List Byte) (k : Fin 12) : (parseCal b).reg k = calConstant b k.val := by fin_cases k <;> rfl

theorem toNat_calConstant {b : List Byte} {k : Nat} (h : 2 * k + 1 < b.length) :
    (calConstant b k).toNat = (b[2 * k]).toNat + 256 * (b[2 * k + 1]).toNat := by
  rw [calConstant, byteAt_eq_getElem h, byteAt_eq_getElem (by omega), toNat_append_eq]
  omega

/-- Zero extension keeps the unsigned reading (R102). -/
theorem toInt_zextHalf (h : Half) : (zextHalf h).toInt = h.toNat := by
  have hlt := h.isLt
  rw [zextHalf, BitVec.toInt_setWidth]
  exact Int.bmod_eq_of_le (by omega) (by omega)

/-- Sign extension keeps the two's complement reading (R102). -/
theorem toInt_sextHalf (h : Half) : (sextHalf h).toInt = h.toInt := BitVec.toInt_signExtend_of_le (by decide)

/-- The sign of a little-endian half is the top bit of its high byte. -/
theorem toInt_half_of_bytes {h : Half} {low high : Byte} (hval : h.toNat = low.toNat + 256 * high.toNat) :
    h.toInt =
      if high.toNat < 128 then (low.toNat + 256 * high.toNat : Int)
      else (low.toNat + 256 * high.toNat : Int) - 65536 := by
  have hlow := low.isLt
  have hsign : 2 * h.toNat < 2 ^ 16 ↔ high.toNat < 128 := by omega
  rw [BitVec.toInt_eq_toNat_cond, if_congr hsign rfl rfl, hval]
  norm_cast

/-- Settles O12: register k holds constant k, whose two bytes are its value, and widening keeps either reading of it. -/
theorem parseCalIsLittleEndian : Obligations.ParseCalIsLittleEndian := by
  intro b hb k
  have hk := k.isLt
  have hval : ((parseCal b).reg k).toNat = (b[2 * k.val]).toNat + 256 * (b[2 * k.val + 1]).toNat := by
    rw [reg_parseCal, toNat_calConstant (by omega)]
  refine ⟨hval, ?_, ?_⟩
  · rw [toInt_zextHalf, hval]
    norm_cast
  · rw [toInt_sextHalf, toInt_half_of_bytes hval]

/-! ### Raw counts -/

theorem toNat_rawCount {b : List Byte} {i : Nat} (h : i + 2 < b.length) :
    (rawCount b i).toNat = (b[i]).toNat * 4096 + (b[i + 1]).toNat * 16 + (b[i + 2]).toNat / 16 := by
  have hxlsb := (b[i + 2]).isLt
  rw [rawCount, byteAt_eq_getElem (by omega), byteAt_eq_getElem (by omega), byteAt_eq_getElem h, toNat_append_eq,
    toNat_append_eq, BitVec.extractLsb'_toNat, Nat.shiftRight_eq_div_pow]
  omega

/-- Settles O13: the pressure count starts at byte 0 and the temperature count at byte 3, and the list holds the bytes of
both. -/
theorem asmRawTakesTheTopTwentyBits : Obligations.AsmRawTakesTheTopTwentyBits := fun _ hb =>
  ⟨toNat_rawCount (i := 0) (by omega), toNat_rawCount (i := 3) (by omega)⟩

/-- Zero extension of a count keeps its value (R102). -/
theorem toNat_zextCount (c : Count) : (zextCount c).toNat = c.toNat := BitVec.toNat_setWidth_of_le (by decide)

end Sys2Proof.Machine
end

section
/-! How RDCAL and RDRAW end once the channel has answered (R81 to R86). -/
namespace Sys2Proof.Machine

/-! ### RDCAL -/

theorem execRdcal_of_env {s : State} {o : BusOutcome} {e : Env}
    (h : s.env.busRead s.cfg.calibBase calibLen = some (o, e)) :
    execRdcal s = .next (rdcalFinish o ((s.setEnv e).log (.busRead s.cfg.calibBase calibLen o))) := by
  simp [execRdcal, State.busRead_of_env h]

theorem rdcalFinish_not_ok {o : BusOutcome} (h : ∀ b, o ≠ .ok b) (s : State) : rdcalFinish o s = s.raise .ioError := by
  cases o with
  | ok b => exact absurd rfl (h b)
  | short _ => rfl
  | fail => rfl

/-- Settles O14: the answer decides the next state, and its frame is that of every RDCAL. -/
theorem rdcalLoadsAllConstants : Obligations.RdcalLoadsAllConstants := by
  intro s b e hread
  have hexec := execRdcal_of_env hread
  have hframe := (keepsOffBank_execRdcal hexec).frame
  exact ⟨_, hexec, rfl, rfl, List.append_assoc _ _ _, rfl, hframe, fun a => congrArg (·.get a) hframe.bankMem⟩

/-- Settles O15: without 24 bytes the command raises `IoError` in the state its one transaction left. -/
theorem failedRdcalLeavesNoTrace : Obligations.FailedRdcalLeavesNoTrace := by
  intro s o e hread ho
  have hexec := execRdcal_of_env hread
  have hframe := (keepsOffBank_execRdcal hexec).frame
  rw [rdcalFinish_not_ok ho] at hexec hframe
  exact ⟨_, hexec, rfl, rfl, List.append_assoc _ _ _, rfl, hframe⟩

/-- The one next state of an RDCAL that reads 24 bytes, as the block and the host see it. -/
theorem block_rsp_of_rdcal_ok {s t : State} {b : List Byte} {e : Env}
    (hread : s.env.busRead s.cfg.calibBase 24 = some (.ok b, e)) (hexec : exec .rdcal s = .next t) :
    t.block = s.block.loadCal (parseCal b) ∧ t.rsp = some ⟨.ok, 0#32, 0#32⟩ := by
  obtain ⟨t', hexec', hblock, hrsp, -⟩ := rdcalLoadsAllConstants s b e hread
  cases hexec.symm.trans hexec'
  exact ⟨hblock, hrsp⟩

/-- A second load of the same constants changes nothing. -/
theorem Block.loadCal_loadCal (b : Block) (c : CalSet) : (b.loadCal c).loadCal c = b.loadCal c := rfl

theorem rdcalFinish_keeps_tFine_tseq (o : BusOutcome) (s : State) :
    (rdcalFinish o s).block.tFine = s.block.tFine ∧ (rdcalFinish o s).block.tseq = s.block.tseq := by
  cases o with
  | ok b => exact ⟨rfl, rfl⟩
  | short _ => exact ⟨rfl, rfl⟩
  | fail => exact ⟨rfl, rfl⟩

/-- Settles O16: each RDCAL that reads these bytes loads their constants, and loading them twice is loading them once. -/
theorem repeatedRdcalIsIdempotent : Obligations.RepeatedRdcalIsIdempotent := by
  refine ⟨fun s t u b e e' hread hexec hread' hexec' => ?_, fun s b e hread => ?_, fun s t hexec => ?_⟩
  · obtain ⟨hblock, hrsp⟩ := block_rsp_of_rdcal_ok hread hexec
    obtain ⟨hblock', hrsp'⟩ := block_rsp_of_rdcal_ok hread' hexec'
    exact ⟨by rw [hblock', hblock, Block.loadCal_loadCal], hrsp.trans hrsp'.symm⟩
  · obtain ⟨t, hexec, hblock, -⟩ := rdcalLoadsAllConstants s b e hread
    exact ⟨t, hexec, by rw [hblock]⟩
  · obtain ⟨o, s', hread, rfl⟩ := execRdcal_next hexec
    obtain ⟨e', -, rfl⟩ := State.busRead_spec hread
    exact rdcalFinish_keeps_tFine_tseq o _

/-! ### RDRAW -/

theorem rdrawFinish_block (o : BusOutcome) (s : State) : (rdrawFinish o s).block = s.block := by
  cases o with
  | ok b => rfl
  | short _ => rfl
  | fail => rfl

/-- Settles O17: the two counts survive their widening into the result words. -/
theorem rdrawReturnsTheSample : Obligations.RdrawReturnsTheSample := by
  intro s b e hread
  have hexec := execRdraw_of_env hread
  have hframe := (keepsOffBank_execRdraw hexec).frame
  exact ⟨_, _, _, hexec, toNat_zextCount _, toNat_zextCount _, rfl, rfl, List.append_assoc _ _ _, rfl, hframe,
    fun a => congrArg (·.get a) hframe.bankMem⟩

/-- Settles O18: neither the transaction nor the response writes the block, and without 6 bytes the response is
`IoError`. -/
theorem rdrawChangesNoBlockState : Obligations.RdrawChangesNoBlockState := by
  refine ⟨fun s t hexec => ?_, fun s o e hread ho => ?_⟩
  · obtain ⟨o, s', hread, rfl⟩ := execRdraw_next hexec
    obtain ⟨e', -, rfl⟩ := State.busRead_spec hread
    exact rdrawFinish_block o _
  · have hexec := execRdraw_of_env hread
    have hframe := (keepsOffBank_execRdraw hexec).frame
    rw [rdrawFinish_not_ok ho] at hexec hframe
    exact ⟨_, hexec, rfl, rfl, List.append_assoc _ _ _, rfl, hframe⟩

end Sys2Proof.Machine
end

section
/-! The 32-bit primitives of R10 with their results read as two's complement, and mixed readings of a difference and a sum
(R100, R101). -/
namespace Sys2Proof.Machine

/-! ### Signed results -/

theorem toInt_add32_wrapS (a b : Word) : (add32 a b).toInt = wrapS (a.toInt + b.toInt) := toInt_add32 a b

theorem toInt_sub32 (a b : Word) : (sub32 a b).toInt = wrapS (a.toInt - b.toInt) := BitVec.toInt_sub

theorem toInt_mul32 (a b : Word) : (mul32 a b).toInt = wrapS (a.toInt * b.toInt) := BitVec.toInt_mul a b

/-- The bits shifted out on the left are what the modulus takes away. -/
theorem toInt_shl32 (a : Word) (n : Nat) : (shl32 a n).toInt = wrapS (a.toInt * 2 ^ n) := by
  rw [wrapS, BitVec.toInt_eq_toNat_bmod, toNat_shl32, BitVec.toInt_eq_toNat_bmod a, Int.bmod_mul_bmod, Int.natCast_emod]
  exact_mod_cast Int.emod_bmod (a.toNat * 2 ^ n) (2 ^ 32)

/-- After a shift by one bit or more the sign bit is clear, so both readings agree (R101: `lsr32` re-read as S32). -/
theorem toInt_lsr32 (a : Word) {n : Nat} (hn : 0 < n) : (lsr32 a n).toInt = (a.toNat : Int) / 2 ^ n := by
  rw [lsr32, BitVec.toInt_ushiftRight_of_lt hn, Nat.shiftRight_eq_div_pow]
  norm_cast

/-- A value of the signed range is its own reduction. -/
theorem wrapS_of_range {x : Int} (hlow : -2 ^ 31 ≤ x) (hhigh : x < 2 ^ 31) : wrapS x = x :=
  Int.bmod_eq_of_le (by omega) (by omega)

/-! ### Unsigned results -/

theorem wrapU_toInt (a : Word) : wrapU a.toInt = a.toNat := by
  have := a.isLt
  rw [wrapU, BitVec.toInt_eq_toNat_cond]
  split <;> omega

/-- An unsigned word plus a signed one. -/
theorem toNat_add32_mixed (a b : Word) : ((add32 a b).toNat : Int) = wrapU (a.toNat + b.toInt) := by
  have hb := wrapU_toInt b
  have hsum := toNat_add32 a b
  unfold wrapU at *
  omega

/-- An unsigned word minus a signed one. -/
theorem toNat_sub32_mixed (a b : Word) : ((sub32 a b).toNat : Int) = wrapU (a.toNat - b.toInt) := by
  have hb := wrapU_toInt b
  have hdiff := toNat_sub32 a b
  unfold wrapU at *
  omega

theorem toNat_lsr32_cast (a : Word) (n : Nat) : ((lsr32 a n).toNat : Int) = (a.toNat : Int) / 2 ^ n := by
  rw [toNat_lsr32]
  norm_cast

theorem toNat_mul32_wrapU (a b : Word) : ((mul32 a b).toNat : Int) = wrapU (a.toNat * b.toNat) := by
  rw [toNat_mul32, wrapU]
  norm_cast

end Sys2Proof.Machine
end

section
/-! The operands of the compensation commands, widened as R102 says. -/
namespace Sys2Proof.Machine

/-- A count has 20 bits, so its widened word has no sign (R102). -/
theorem toInt_zextCount (c : Count) : (zextCount c).toInt = c.toNat := by
  have hlt := c.isLt
  rw [zextCount, BitVec.toInt_setWidth]
  exact Int.bmod_eq_of_le (by omega) (by omega)

/-- Settles O11: each widening keeps its reading, and the two commands name the registers by their aliases. -/
theorem wideningKeepsEveryValue : Obligations.WideningKeepsEveryValue :=
  ⟨toInt_zextHalf, toInt_sextHalf, toInt_zextCount, fun _ _ => rfl, fun _ _ _ => rfl⟩

end Sys2Proof.Machine
end

section
/-! The temperature formula on exact integers, and the range of its results (R103, R105). -/
namespace Sys2Proof.Machine

theorem toInt_tempVar1 (t1 t2 adcT : Word) :
    (tempVar1 t1 t2 adcT).toInt =
      wrapS (wrapS (adcT.toInt / 2 ^ 3 - wrapS (t1.toInt * 2)) * t2.toInt) / 2 ^ 11 := by
  simp only [tempVar1, toInt_asr32, toInt_mul32, toInt_sub32, toInt_shl32, pow_one]

theorem toInt_tempVar2 (t1 t3 adcT : Word) :
    (tempVar2 t1 t3 adcT).toInt =
      wrapS (wrapS (wrapS (adcT.toInt / 2 ^ 4 - t1.toInt) * wrapS (adcT.toInt / 2 ^ 4 - t1.toInt)) / 2 ^ 12 *
        t3.toInt) / 2 ^ 14 := by
  simp only [tempVar2, toInt_asr32, toInt_mul32, toInt_sub32]

theorem toInt_tempComp_tFine (t1 t2 t3 adcT : Word) :
    (tempComp t1 t2 t3 adcT).tFine.toInt = exactTFine t1.toInt t2.toInt t3.toInt adcT.toInt := by
  simp only [tempComp, toInt_add32_wrapS, toInt_tempVar1, toInt_tempVar2, exactTFine]

theorem toInt_tempComp_temp (t1 t2 t3 adcT : Word) :
    (tempComp t1 t2 t3 adcT).temp.toInt = exactTemp (tempComp t1 t2 t3 adcT).tFine.toInt := by
  have h5 : (5#32 : Word).toInt = 5 := by decide
  have h128 : (128#32 : Word).toInt = 128 := by decide
  simp only [tempComp, toInt_asr32, toInt_add32_wrapS, toInt_mul32, h5, h128, exactTemp]

/-- Settles O21: `T` is computed from the word `t_fine`, whose reading is exact. -/
theorem temperatureFollowsItsSteps : Obligations.TemperatureFollowsItsSteps := fun t1 t2 t3 adcT =>
  ⟨toInt_tempComp_tFine t1 t2 t3 adcT, by rw [toInt_tempComp_temp, toInt_tempComp_tFine]⟩

/-- In the range of a computed `T_FINE` neither step of `T` wraps (R105). -/
theorem exactTemp_of_range {tFine : Int} (hlow : -1179648 ≤ tFine) (hhigh : tFine ≤ 1179646) :
    exactTemp tFine = (tFine * 5 + 128) / 256 := by
  rw [exactTemp, wrapS_of_range (x := tFine * 5) (by omega) (by omega), wrapS_of_range (by omega) (by omega)]
  rfl

/-- Settles O22: the two shifts bound the terms, and the terms bound everything after them. -/
theorem temperatureResultsStayInRange : Obligations.TemperatureResultsStayInRange := by
  intro t1 t2 t3 adcT
  obtain ⟨hlow1, hhigh1⟩ := tempVar1_range t1 t2 adcT
  obtain ⟨hlow2, hhigh2⟩ := tempVar2_range t1 t3 adcT
  obtain ⟨hlow, hhigh⟩ := tempComp_tFine_range t1 t2 t3 adcT
  have htemp := (toInt_tempComp_temp t1 t2 t3 adcT).trans (exactTemp_of_range hlow hhigh)
  exact ⟨hlow1, hhigh1, hlow2, hhigh2, tempComp_tFine_toInt t1 t2 t3 adcT, hlow, hhigh, htemp, by omega, by omega⟩

end Sys2Proof.Machine
end

section
/-! The pressure formula on exact integers: up to the division, the division, and after it (R106 to R108). -/
namespace Sys2Proof.Machine

/-! ### The division (R108) -/

/-- Branch A: the doubling loses no bit. -/
theorem toNat_pressDivide_of_lt {p1 : Word} (h : p1.toNat < 2 ^ 31) (dvs : Word) :
    (pressDivide p1 dvs).toNat = 2 * p1.toNat / dvs.toNat := by
  have hbranch : ult32 p1 0x80000000#32 = true := (ult32_iff _ _).mpr h
  have hdouble : p1.toNat * 2 ^ 1 % 2 ^ 32 = 2 * p1.toNat := by omega
  rw [pressDivide, if_pos hbranch, toNat_udiv32, toNat_shl32, hdouble]

/-- Branch B: the quotient is doubled modulo `2 ^ 32`. -/
theorem toNat_pressDivide_of_ge {p1 : Word} (h : 2 ^ 31 ≤ p1.toNat) (dvs : Word) :
    (pressDivide p1 dvs).toNat = 2 * (p1.toNat / dvs.toNat) % 2 ^ 32 := by
  have hbranch : ¬ult32 p1 0x80000000#32 = true := fun hlt => Nat.not_lt.mpr h ((ult32_iff _ _).mp hlt)
  rw [pressDivide, if_neg hbranch, toNat_mul32, toNat_udiv32, Nat.mul_comm]
  rfl

/-- A divisor of 2 or more leaves a quotient whose double fits a word. -/
theorem two_mul_div_lt {p d : Nat} (hp : p < 2 ^ 32) (hd : 2 ≤ d) : 2 * (p / d) < 2 ^ 32 := by
  have hle : p / d ≤ p / 2 := Nat.div_le_div_left hd (by decide)
  omega

/-- Doubling before the division keeps one more bit of the quotient: whether twice the remainder reaches the divisor. -/
theorem two_mul_div_eq (p : Nat) {d : Nat} (hd : 0 < d) :
    2 * p / d = 2 * (p / d) + if p % d * 2 ≥ d then 1 else 0 := by
  have hsplit : 2 * p = d * (2 * (p / d)) + p % d * 2 := by
    conv_lhs => rw [← Nat.div_add_mod p d]
    ring
  have hrem := Nat.mod_lt p hd
  rw [hsplit, Nat.mul_add_div hd]
  congr 1
  split
  · exact Nat.div_eq_of_lt_le (by omega) (by omega)
  · exact Nat.div_eq_of_lt (by omega)

/-- Settles O28: the two branches as numbers, and how far apart the two schemes are. -/
theorem divisionBranchesAtTheThreshold : Obligations.DivisionBranchesAtTheThreshold := by
  intro p1 dvs hne
  have hpos : 0 < dvs.toNat := by
    have : dvs.toNat ≠ 0 := fun h => hne (BitVec.eq_of_toNat_eq h)
    omega
  refine ⟨fun h => toNat_pressDivide_of_lt h dvs, fun h => toNat_pressDivide_of_ge h dvs, fun _ hwrap => ?_,
    fun _ => two_mul_div_eq p1.toNat hpos⟩
  by_contra hone
  exact absurd (two_mul_div_lt p1.isLt (d := dvs.toNat) (by omega)) (Nat.not_lt.mpr hwrap)

/-! ### The zero divisor (R107) -/

theorem pressComp_of_zero {c : PressParams} {tFine : Word} (h : pressV1c c tFine = 0#32) (adcP : Word) :
    pressComp c tFine adcP = 0#32 :=
  if_pos h

theorem pressComp_of_ne_zero {c : PressParams} {tFine : Word} (h : pressV1c c tFine ≠ 0#32) (adcP : Word) :
    pressComp c tFine adcP =
      pressAdjust c (pressDivide (pressDividend c tFine adcP) (pressV1c c tFine)) :=
  if_neg h

/-- A word that is negative as an S32 lies in the upper half as a U32. -/
theorem le_toNat_of_toInt_neg {a : Word} (h : a.toInt < 0) : 2 ^ 31 ≤ a.toNat := by
  have := BitVec.toInt_neg_iff.mp h
  omega

/-! ### The steps on exact integers (R106) -/

/-- `p1` on exact integers, unsigned, from the signed `v2c`. -/
def exactDividend (v2c adcP : Int) : Int := wrapU (wrapU (wrapU (1048576 - adcP) - v2c / 2 ^ 12) * 3125)

/-- `p2` on exact integers, unsigned. -/
def exactDivide (p1 dvs : Int) : Int := if p1 < 2 ^ 31 then 2 * p1 / dvs else wrapU (p1 / dvs * 2)

/-- The steps after the division on exact integers, from the unsigned `p2`. -/
def exactAdjust (c : ExactParams) (p2 : Int) : Int :=
  let rr := wrapU (p2 / 2 ^ 3 * (p2 / 2 ^ 3))
  let w1 := wrapS (c.p9 * (rr / 2 ^ 13)) / 2 ^ 12
  let w2 := wrapS (p2 / 2 ^ 2 * c.p8) / 2 ^ 13
  wrapU (p2 + wrapS (wrapS (w1 + w2) + c.p7) / 2 ^ 4)

theorem exactPress_eq (c : ExactParams) (tFine adcP : Int) :
    exactPress c tFine adcP =
      if (exactBeforeDivision c tFine).2 = 0 then 0
      else exactAdjust c (exactDivide (exactDividend (exactBeforeDivision c tFine).1 adcP)
        (wrapU (exactBeforeDivision c tFine).2)) := rfl

/-- Up to the division every value is read signed. -/
theorem exactBeforeDivision_eq (c : PressParams) (tFine : Word) :
    exactBeforeDivision c.exact tFine.toInt = ((pressV2c c tFine).toInt, (pressV1c c tFine).toInt) := by
  have h64000 : (64000#32 : Word).toInt = 64000 := by decide
  have h32768 : (32768#32 : Word).toInt = 32768 := by decide
  simp only [exactBeforeDivision, PressParams.exact, pressV2c, pressV1c, pressQq, pressV1a, toInt_asr32,
    toInt_add32_wrapS, toInt_sub32, toInt_mul32, toInt_shl32, pow_one, h64000, h32768]

/-- The dividend is read unsigned, the shifted `v2c` inside it signed. -/
theorem toNat_pressDividend (c : PressParams) (tFine adcP : Word) :
    ((pressDividend c tFine adcP).toNat : Int) = exactDividend (pressV2c c tFine).toInt adcP.toInt := by
  have h1048576 : ((1048576#32 : Word).toNat : Int) = 1048576 := rfl
  have h3125 : ((3125#32 : Word).toNat : Int) = 3125 := rfl
  simp only [pressDividend, toNat_mul32_wrapU, toNat_sub32_mixed, toInt_asr32, h1048576, h3125, exactDividend]

theorem toNat_pressDivide (p1 dvs : Word) : ((pressDivide p1 dvs).toNat : Int) = exactDivide p1.toNat dvs.toNat := by
  unfold exactDivide wrapU
  split
  · next h =>
    rw [toNat_pressDivide_of_lt (by omega), Int.natCast_ediv, Int.natCast_mul]
    rfl
  · next h =>
    rw [toNat_pressDivide_of_ge (by omega), Nat.mul_comm]
    norm_cast

/-- After the division the quotient is read unsigned, and its shifted values and the correction signed. -/
theorem toNat_pressAdjust (c : PressParams) (p2 : Word) :
    ((pressAdjust c p2).toNat : Int) = exactAdjust c.exact p2.toNat := by
  simp (disch := decide) only [pressAdjust, toNat_add32_mixed, toInt_asr32, toInt_add32_wrapS, toInt_mul32,
    toInt_lsr32, toNat_mul32_wrapU, toNat_lsr32_cast, exactAdjust, PressParams.exact]

/-- Settles O29: each of the three stretches is exact, and `v1c` is zero as a word when it is zero as a number. -/
theorem pressureFollowsItsSteps : Obligations.PressureFollowsItsSteps := by
  intro c tFine adcP
  rw [exactPress_eq, exactBeforeDivision_eq]
  by_cases hzero : pressV1c c tFine = 0#32
  · rw [pressComp_of_zero hzero, if_pos (by simp [hzero])]
    rfl
  · have hne : (pressV1c c tFine).toInt ≠ 0 := fun h => hzero (BitVec.eq_of_toInt_eq h)
    rw [pressComp_of_ne_zero hzero, if_neg hne, wrapU_toInt, ← toNat_pressDividend, ← toNat_pressDivide,
      ← toNat_pressAdjust]

end Sys2Proof.Machine
end

section
/-! CMPT and CMPP on a calibrated block, and the two after an RDCAL (R104, R107, R109, R110). -/
namespace Sys2Proof.Machine

theorem execCmpt_calibrated {s : State} (hv : s.block.calValid = true) (raw : Count) :
    execCmpt raw s = .next (cmptFinish raw s) := by
  rw [execCmpt, if_pos hv]

theorem execCmpp_calibrated {s : State} (hv : s.block.calValid = true) (hq : s.block.tseq ≠ .unset) (raw : Count) :
    execCmpp raw s = .next (cmppFinish raw s) := by
  rw [execCmpp, if_pos hv, if_neg hq]

/-- Settles O23: whatever the phase was, it is `FRESH` after the command. -/
theorem cmptStoresTFineAndAnswersT : Obligations.CmptStoresTFineAndAnswersT := by
  intro s raw hv
  have hblock : s.block.storeTFine (tempOf s.block.cal raw).tFine =
      { s.block with tFine := (tempOf s.block.cal raw).tFine, tseq := .fresh } := by
    rw [Block.storeTFine, Tseq.afterCmpt_eq]
  rw [exec, execCmpt_calibrated hv, cmptFinish, hblock]
  rfl

theorem Block.consumeTFine_eq {b : Block} (hq : b.tseq ≠ .unset) : b.consumeTFine = { b with tseq := .consumed } := by
  rw [Block.consumeTFine, Tseq.afterCmpp_eq hq]

theorem zextBit_stale (p : Tseq) : zextBit p.stale = if p = .consumed then 1#32 else 0#32 := by
  cases p <;> rfl

/-- Settles O26: the stale bit is that of the phase in which the command began. -/
theorem cmppAnswersPressureAndConsumes : Obligations.CmppAnswersPressureAndConsumes := by
  intro s raw hv hq
  refine ⟨_, zextBit_stale s.block.tseq, ?_⟩
  rw [exec, execCmpp_calibrated hv hq, cmppFinish, Block.consumeTFine_eq hq]
  rfl

/-- Settles O27: the test on `v1c` comes before the later steps, and a negative word is not zero. -/
theorem zeroDivisorAnswersZero : Obligations.ZeroDivisorAnswersZero := by
  refine ⟨fun c tFine adcP hzero => pressComp_of_zero hzero adcP, fun s raw hv hq hzero => ?_,
    fun c tFine adcP hneg => ?_⟩
  · obtain ⟨d1, -, hexec⟩ := cmppAnswersPressureAndConsumes s raw hv hq
    rw [pressureOf, pressComp_of_zero hzero] at hexec
    exact ⟨_, d1, hexec, rfl, rfl⟩
  · have hlow := le_toNat_of_toInt_neg hneg
    have hne : pressV1c c tFine ≠ 0#32 := fun h => by simp [h] at hneg
    exact ⟨hlow, Nat.le_sub_one_of_lt (pressV1c c tFine).isLt, pressComp_of_ne_zero hne adcP⟩

/-- Settles O33: each command's next state meets the premises of the next one, and every register that the results depend
on has been written on the way. -/
theorem freshBlockCompensatesReproducibly : Obligations.FreshBlockCompensatesReproducibly := by
  intro s b e rawT rawP hreset hread
  obtain ⟨t1, hrdcal, hblock, -⟩ := rdcalLoadsAllConstants s b e hread
  obtain ⟨t2, hcmpt, hrsp2, hblock2⟩ : ∃ t2, exec (.cmpt rawT) t1 = .next t2 ∧
      t2.rsp = some ⟨.ok, (tempOf (parseCal b) rawT).temp, 0#32⟩ ∧
      t2.block = ⟨parseCal b, true, (tempOf (parseCal b) rawT).tFine, .fresh⟩ := by
    have hexec := cmptStoresTFineAndAnswersT t1 rawT (by rw [hblock])
    rw [hblock] at hexec
    exact ⟨_, hexec, rfl, rfl⟩
  obtain ⟨d1, hd1, hcmpp⟩ := cmppAnswersPressureAndConsumes t2 rawP (by rw [hblock2]) (by rw [hblock2]; nofun)
  rw [hblock2] at hd1 hcmpp
  exact ⟨t1, t2, _, hrdcal, hcmpt, hcmpp, hrsp2, by rw [hd1]; rfl, rfl⟩

end Sys2Proof.Machine
end

section
/-! The pin decoder, the masks of R133 and the word of a read-modify-write, bit by bit (R131 to R133). -/
namespace Sys2Proof.Machine

/-! ### The pin decoder -/

theorem fselShift_le (pin : Nat) : fselShift pin ≤ 27 := by
  simp only [fselShift, fselPerWord, fselBits]
  omega

/-- Settles O34: a valid pin's word indices lie inside their blocks, where the offsets do not wrap. -/
theorem pinDecoderFormulas : Obligations.PinDecoderFormulas := fun _ pin hc hpin =>
  have hp : pin < pinCount := hpin
  ⟨toNat_setAddr hc hp, toNat_clrAddr hc hp, toNat_levAddr hc hp, by omega, rfl, toNat_fselAddr hc hp, by omega, rfl,
    fselShift_le pin, fun _ => rfl⟩

/-! ### The masks -/

/-- Bit `k` of a function-select word belongs to the pin's field (R132). -/
abbrev InFselField (pin k : Nat) : Prop := fselShift pin ≤ k ∧ k < fselShift pin + 3

theorem getLsbD_shl32 (a : Word) (n : Nat) {k : Nat} (hk : k < 32) :
    (shl32 a n).getLsbD k = (decide (n ≤ k) && a.getLsbD (k - n)) := by
  rw [shl32, BitVec.getLsbD_shiftLeft, decide_eq_true hk, Bool.true_and, ← decide_not]
  simp only [Nat.not_lt]

theorem getLsbD_mask1 (pin : Nat) {k : Nat} (hk : k < 32) : (mask1 pin).getLsbD k = decide (k = levelBit pin) := by
  rw [mask1, getLsbD_shl32 _ _ hk, BitVec.getLsbD_one, Bool.eq_iff_iff]
  simp only [Bool.and_eq_true, decide_eq_true_iff]
  omega

theorem getLsbD_mask3 (pin : Nat) {k : Nat} (hk : k < 32) : (mask3 pin).getLsbD k = decide (InFselField pin k) := by
  have hones : 0b111#32 = (BitVec.allOnes 3).setWidth 32 := by decide
  rw [mask3, getLsbD_shl32 _ _ hk, hones, BitVec.getLsbD_setWidth, BitVec.getLsbD_allOnes, Bool.eq_iff_iff]
  simp only [Bool.and_eq_true, decide_eq_true_iff]
  omega

/-! ### The function-select codes -/

@[simp] theorem getLsbD_fselInput (j : Nat) : fselInput.getLsbD j = false := BitVec.getLsbD_zero

@[simp] theorem getLsbD_fselOutput (j : Nat) : fselOutput.getLsbD j = decide (j = 0) := by
  simp [fselOutput, BitVec.getLsbD_one]

/-- The two codes the block writes (R133). -/
abbrev IsFselCode (code : Word) : Prop := code = fselInput ∨ code = fselOutput

theorem IsFselCode.getLsbD_of_le {code : Word} (hcode : IsFselCode code) {j : Nat} (hj : 3 ≤ j) :
    code.getLsbD j = false := by
  obtain rfl | rfl := hcode
  · exact getLsbD_fselInput j
  · rw [getLsbD_fselOutput]
    exact decide_eq_false (by omega)

/-! ### The new word of a read-modify-write -/

/-- The code in the field, the old word's bits everywhere else (R133). -/
theorem getLsbD_fselInsert {code : Word} (hcode : IsFselCode code) (old : Word) (pin : Nat) {k : Nat} (hk : k < 32) :
    (fselInsert old pin code).getLsbD k =
      if InFselField pin k then code.getLsbD (k - fselShift pin) else old.getLsbD k := by
  have hnew : (fselInsert old pin code).getLsbD k = (old.getLsbD k && !decide (InFselField pin k) ||
      decide (fselShift pin ≤ k) && code.getLsbD (k - fselShift pin)) := by
    rw [fselInsert, BitVec.getLsbD_or, BitVec.getLsbD_and, BitVec.getLsbD_not, getLsbD_mask3 pin hk, getLsbD_shl32 _ _ hk]
    simp [hk]
  rw [hnew]
  by_cases hin : InFselField pin k
  · simp [hin]
  · rw [if_neg hin]
    by_cases hlow : fselShift pin ≤ k
    · simp [hin, hcode.getLsbD_of_le (j := k - fselShift pin) (by omega)]
    · simp [hin, hlow]

theorem getLsbD_fselInsert_fselInput (old : Word) (pin : Nat) {k : Nat} (hk : k < 32) :
    (fselInsert old pin fselInput).getLsbD k = if InFselField pin k then false else old.getLsbD k := by
  rw [getLsbD_fselInsert (.inl rfl) _ _ hk, getLsbD_fselInput]

/-- The output code has its one bit at the foot of the field. -/
theorem getLsbD_fselInsert_fselOutput (old : Word) (pin : Nat) {k : Nat} (hk : k < 32) :
    (fselInsert old pin fselOutput).getLsbD k =
      if InFselField pin k then decide (k = fselShift pin) else old.getLsbD k := by
  rw [getLsbD_fselInsert (.inr rfl) _ _ hk, getLsbD_fselOutput]
  refine ite_congr rfl (fun hin => decide_eq_decide.mpr ?_) fun _ => rfl
  have hlow := hin.1
  omega

theorem getLsbD_fselField (word : Word) (pin : Nat) {j : Nat} (hj : j < 3) :
    (fselField word pin).getLsbD j = word.getLsbD (fselShift pin + j) := by
  simp [fselField, hj]

/-- A pin's field is the three bits from its shift up. -/
theorem fselField_congr {word word' : Word} {pin : Nat}
    (h : ∀ k, InFselField pin k → word.getLsbD k = word'.getLsbD k) : fselField word pin = fselField word' pin := by
  refine BitVec.eq_of_getLsbD_eq fun j hj => ?_
  rw [getLsbD_fselField _ _ hj, getLsbD_fselField _ _ hj]
  exact h _ ⟨by omega, by omega⟩

theorem fselField_fselInsert {code : Word} (hcode : IsFselCode code) (old : Word) (pin : Nat) :
    fselField (fselInsert old pin code) pin = code.setWidth 3 := by
  refine BitVec.eq_of_getLsbD_eq fun j hj => ?_
  have hshift := fselShift_le pin
  rw [getLsbD_fselField _ _ hj, getLsbD_fselInsert hcode _ _ (by omega), if_pos ⟨by omega, by omega⟩,
    BitVec.getLsbD_setWidth, Nat.add_sub_cancel_left]
  simp [hj]

/-- Settles O35: the masks, and the field insertion made with them, bit by bit. -/
theorem masksAndFieldInsertion : Obligations.MasksAndFieldInsertion := by
  refine ⟨fun pin k hk => ?_, fun pin k hk => ?_, rfl, rfl, fun old code pin hcode => ⟨rfl, ?_, fun k hk hout => ?_⟩⟩
  · rw [getLsbD_mask1 pin hk]
    exact decide_eq_true_iff
  · rw [getLsbD_mask3 pin hk]
    exact decide_eq_true_iff
  · exact fselField_fselInsert hcode old pin
  · exact (getLsbD_fselInsert hcode old pin hk).trans (if_neg hout)

/-- The level word after a write has the value at the pin's bit, whatever bit was there (R56, R135). -/
theorem getLsbD_levelInsert (old : Word) (pin : Nat) (value : Bool) :
    (levelInsert old pin value).getLsbD (levelBit pin) = value := by
  have hlt : levelBit pin < 32 := Nat.mod_lt _ (by decide)
  have hmask : (mask1 pin).getLsbD (levelBit pin) = true := (getLsbD_mask1 pin hlt).trans (decide_eq_true rfl)
  cases value with
  | true => rw [levelInsert, if_pos rfl, BitVec.getLsbD_or, hmask, Bool.or_true]
  | false =>
    rw [levelInsert, if_neg Bool.false_ne_true, BitVec.getLsbD_and, BitVec.getLsbD_not, hmask]
    simp

end Sys2Proof.Machine
end

section
/-! How each GPIO command ends: its transactions, its response, and what it leaves alone (R130, R135 to R139). -/
namespace Sys2Proof.Machine

/-- Settles O36: the pin check fails, so the error's response is all there is. -/
theorem invalidPinStopsEveryGpioCommand : Obligations.InvalidPinStopsEveryGpioCommand := fun s _ _ _ hi hpin =>
  exec_invalidPin hi (decide_eq_false (Nat.not_lt.mpr hpin)) s

/-! ### The word read -/

@[simp] theorem Env.interfere_memScript (e : Env) (c : Config) : (e.interfere c).memScript = e.memScript := by
  rw [Env.interfere_spec]

/-- An oracle bank answers with the next scripted word. -/
theorem Env.bankAnswer_scripted {e : Env} (hb : e.bank = .oracle) {w : Word} {rest : List Word}
    (hs : e.memScript = w :: rest) (c : Config) (off : Word) : (e.bankAnswer c off).1 = w := by
  unfold Env.bankAnswer
  rw [hb]
  simp [hs]

/-- Other agents' writes do not reach the script. -/
theorem State.memRead_scripted {s : State} (hb : s.env.bank = .oracle) {w : Word} {rest : List Word}
    (hs : s.env.memScript = w :: rest) (off : Word) : (s.memRead off).1 = w :=
  Env.bankAnswer_scripted (by simpa using hb) (by simpa using hs) s.cfg off

theorem FaithfulExclusive.memRead_fselAddr {s : State} (h : FaithfulExclusive s) {pin : Nat} (hp : pin < pinCount) :
    (s.memRead (fselAddr s.cfg pin)).1 = s.env.bankMem.load32 (fselByte s.cfg (fselWord pin)) :=
  (State.memRead_faithful h.faithful h.exclusive (bankGet_fselAddr h.cfg hp _)).1

theorem FaithfulExclusive.memRead_levAddr {s : State} (h : FaithfulExclusive s) {pin : Nat} (hp : pin < pinCount) :
    (s.memRead (levAddr s.cfg pin)).1 = s.env.bankMem.load32 (levelByte s.cfg (levelWord pin)) :=
  (State.memRead_faithful h.faithful h.exclusive (bankGet_levAddr h.cfg hp _)).1

/-! ### The transactions -/

@[simp] theorem levelWrite_trace (pin : Nat) (value : Bool) (s : State) :
    (levelWrite pin value s).trace =
      s.trace ++ [.memWrite (if value then setAddr s.cfg pin else clrAddr s.cfg pin) (mask1 pin)] := rfl

@[simp] theorem fselRmw_cfg (pin : Nat) (code : Word) (s : State) : (fselRmw pin code s).cfg = s.cfg := rfl

@[simp] theorem fselRmw_trace (pin : Nat) (code : Word) (s : State) :
    (fselRmw pin code s).trace = s.trace ++
      [.memRead (fselAddr s.cfg pin) (s.memRead (fselAddr s.cfg pin)).1,
        .memWrite (fselAddr s.cfg pin) (fselInsert (s.memRead (fselAddr s.cfg pin)).1 pin code)] :=
  List.append_assoc _ _ _

/-! ### The commands on a valid pin -/

/-- Settles O38: the command is one write and its response. -/
theorem gsetWritesOneMask : Obligations.GsetWritesOneMask := fun s pin value hpin =>
  ⟨_, execGset_valid hpin value s, rfl, List.append_assoc _ _ _,
    (((gpioOnly_respond _ _).comp (gpioOnly_levelWrite pin value)).keepsOff s).frame⟩

/-- Settles O39: the command is one read and its response. -/
theorem ggetReadsOneLevelBit : Obligations.GgetReadsOneLevelBit := fun s pin hpin =>
  ⟨_, _, execGget_valid hpin s, rfl, List.append_assoc _ _ _, ((gpioOnly_ggetFinish pin).keepsOff s).frame,
    fun _ _ hb hs => State.memRead_scripted hb hs _, fun h => h.memRead_levAddr hpin⟩

/-- Settles O40: the command is one read-modify-write with the input code and its response. -/
theorem gdinClearsTheField : Obligations.GdinClearsTheField := fun s pin hpin =>
  ⟨_, (s.memRead (fselAddr s.cfg pin)).1, fselInsert _ pin fselInput, execGdin_valid hpin s, rfl, by simp,
    (((gpioOnly_respond _ _).comp (gpioOnly_fselRmw pin fselInput)).keepsOff s).frame,
    fun _ hk => getLsbD_fselInsert_fselInput _ _ hk,
    fun _ _ hb hs => State.memRead_scripted hb hs _, fun h => h.memRead_fselAddr hpin⟩

/-- Settles O41: the command is one read-modify-write with the output code, the write of GSET and its response. -/
theorem gdoutSetsDirectionThenLevel : Obligations.GdoutSetsDirectionThenLevel := fun s pin value hpin =>
  ⟨_, (s.memRead (fselAddr s.cfg pin)).1, fselInsert _ pin fselOutput, execGdout_valid hpin value s, rfl, by simp,
    ((((gpioOnly_respond _ _).comp (gpioOnly_levelWrite pin value)).comp (gpioOnly_fselRmw pin fselOutput)).keepsOff
      s).frame,
    fun _ hk => getLsbD_fselInsert_fselOutput _ _ hk,
    fun _ _ hb hs => State.memRead_scripted hb hs _, fun h => h.memRead_fselAddr hpin⟩

end Sys2Proof.Machine
end

section
/-! The GPIO commands one after another on FaithfulBank, and the bits a direction command leaves alone (R141, R142). -/
namespace Sys2Proof.Machine

theorem FaithfulExclusive.levelWrite {s : State} (h : FaithfulExclusive s) (pin : Nat) (value : Bool) :
    FaithfulExclusive (levelWrite pin value s) :=
  h.memWrite _ _

theorem FaithfulExclusive.respond {s : State} (h : FaithfulExclusive s) (d0 d1 : Word) :
    FaithfulExclusive (s.respond d0 d1) :=
  ⟨h.cfg, h.faithful, h.wf, h.exclusive⟩

/-- Settles O43: GGET reads the level word that GSET left. -/
theorem levelRoundTrip : Obligations.LevelRoundTrip := by
  intro s pin value h hpin
  obtain ⟨u, x, hexec, hrsp, -, -, -, hread⟩ :=
    ggetReadsOneLevelBit ((levelWrite pin value s).respond 0#32 0#32) pin hpin
  have hword : x = levelInsert (s.env.bankMem.load32 (levelByte s.cfg (levelWord pin))) pin value :=
    (hread ((h.levelWrite pin value).respond _ _)).trans (h.writesWord_levelWrite hpin value).word
  have hbit : x.getLsbD (pin % 32) = value := hword ▸ getLsbD_levelInsert _ pin value
  exact ⟨_, u, execGset_valid hpin value s, hexec, hbit ▸ hrsp⟩

/-! ### The function-select block around a direction command -/

/-- Between `s` and `t` no bit of the function-select words changed but those of the pin's own field. -/
def FselBitsKept (s t : State) (pin : Nat) : Prop :=
  ∀ w < fselWords, ∀ k < 32, ¬(w = fselWord pin ∧ InFselField pin k) →
    (t.env.bankMem.load32 (fselByte s.cfg w)).getLsbD k = (s.env.bankMem.load32 (fselByte s.cfg w)).getLsbD k

/-- Two different function-select words share no byte. -/
theorem fselByte_disjoint (c : Config) {i j : Nat} (h : i ≠ j) : rangesDisjoint (fselByte c i) 4 (fselByte c j) 4 :=
  words_disjoint c.fselOff.toNat h

theorem FaithfulExclusive.fselBitsKept_fselRmw {s : State} (h : FaithfulExclusive s) {pin : Nat}
    (hp : pin < pinCount) {code : Word} (hcode : IsFselCode code) :
    FselBitsKept s (Machine.fselRmw pin code s) pin := by
  intro w _ k hk hout
  have hwrite := h.writesWord_fselRmw hp code
  by_cases hw : w = fselWord pin
  · subst hw
    rw [hwrite.word, getLsbD_fselInsert hcode _ _ hk, if_neg fun hin => hout ⟨rfl, hin⟩]
  · rw [hwrite.load32_of_disjoint (fselByte_disjoint s.cfg (Ne.symm hw))]

/-- The write of a level leaves the function-select block alone. -/
theorem FaithfulExclusive.load32_fselByte_levelWrite {s : State} (h : FaithfulExclusive s) {pin : Nat}
    (hp : pin < pinCount) (value : Bool) {w : Nat} (hw : w < fselWords) :
    (Machine.levelWrite pin value s).env.bankMem.load32 (fselByte s.cfg w) =
      s.env.bankMem.load32 (fselByte s.cfg w) :=
  (h.writesWord_levelWrite hp value).load32_of_disjoint (fsel_level_disjoint h.cfg hw (levelWord_lt hp)).symm

theorem FaithfulExclusive.fselBitsKept_direction {s t : State} (h : FaithfulExclusive s) {pin : Nat}
    (hp : pin < pinCount) {value : Bool} {i : Instr} (hi : i = .gdin pin ∨ i = .gdout pin value)
    (hexec : exec i s = .next t) : FselBitsKept s t pin := by
  obtain rfl | rfl := hi
  · cases (execGdin_valid hp s).symm.trans hexec
    exact h.fselBitsKept_fselRmw hp (.inl rfl)
  · cases (execGdout_valid hp value s).symm.trans hexec
    intro w hw k hk hout
    exact (congrArg (·.getLsbD k) ((h.fselRmw pin fselOutput).load32_fselByte_levelWrite hp value hw)).trans
      (h.fselBitsKept_fselRmw hp (.inr rfl) w hw k hk hout)

/-- Two pins of one function-select word have no bit in common (R132). -/
theorem eq_of_inFselField {p q k : Nat} (hw : fselWord q = fselWord p) (hq : InFselField q k) (hp : InFselField p k) :
    q = p := by
  simp only [InFselField, fselShift, fselWord, fselPerWord, fselBits] at *
  omega

/-- Settles O44: the field of another pin and bits 31:30 of every word lie outside the field written. -/
theorem directionFieldIsolation : Obligations.DirectionFieldIsolation := by
  intro s t p q value i h hp hq hne hi hexec
  have hkept := h.fselBitsKept_direction hp hi hexec
  refine ⟨fselField_congr fun k hin => hkept (fselWord q) (fselWord_lt hq) k ?_ ?_, fun w hw k hk => hkept w hw k ?_ ?_⟩
  · have := fselShift_le q
    omega
  · exact fun ⟨hword, hin'⟩ => hne (eq_of_inFselField hword hin hin')
  · omega
  · have := fselShift_le p
    omega

/-- Settles O45: each command's read-modify-write puts its own code in the field, and the level write between them is
elsewhere. -/
theorem gdoutThenGdinLeavesAnInput : Obligations.GdoutThenGdinLeavesAnInput := by
  intro s pin value h hpin
  have hafter : FaithfulExclusive ((levelWrite pin value (fselRmw pin fselOutput s)).respond 0#32 0#32) :=
    ((h.fselRmw pin fselOutput).levelWrite pin value).respond _ _
  refine ⟨_, _, execGdout_valid hpin value s, execGdin_valid hpin _, ?_, ?_⟩
  · have hword := ((h.fselRmw pin fselOutput).load32_fselByte_levelWrite hpin value (fselWord_lt hpin)).trans
      (h.writesWord_fselRmw hpin fselOutput).word
    exact (congrArg (fselField · pin) hword).trans (fselField_fselInsert (.inr rfl) _ pin)
  · exact (congrArg (fselField · pin) (hafter.writesWord_fselRmw hpin fselInput).word).trans
      (fselField_fselInsert (.inl rfl) _ pin)

end Sys2Proof.Machine
end

section
/-! How a command ends, with the table of R176: completed, after one failing `BusRead`, or refused before any
transaction. The statuses of each command and the frame of an error follow from it (R160, R165 to R168). -/
namespace Sys2Proof.Machine

/-! ### The idle step -/

/-- Settles O2: with no word to take, the step answers its own state. -/
theorem idleBlockDoesNotMove : Obligations.IdleBlockDoesNotMove := fun _ hc => step_idle hc

/-! ### Compensations turned away -/

theorem execCmpt_notCalibrated {s : State} (hv : s.block.calValid = false) (raw : Count) :
    execCmpt raw s = .next (s.raise .notCalibrated) := by
  rw [execCmpt, if_neg (Bool.eq_false_iff.mp hv)]

theorem execCmpp_notCalibrated {s : State} (hv : s.block.calValid = false) (raw : Count) :
    execCmpp raw s = .next (s.raise .notCalibrated) := by
  rw [execCmpp, if_neg (Bool.eq_false_iff.mp hv)]

theorem execCmpp_tFineUnset {s : State} (hv : s.block.calValid = true) (hq : s.block.tseq = .unset) (raw : Count) :
    execCmpp raw s = .next (s.raise .tFineUnset) := by
  rw [execCmpp, if_pos hv, if_pos hq]

/-- Settles O24: both commands look at `CAL_VALID` first, and the error's response is all there is. -/
theorem compensationNeedsCalibration : Obligations.CompensationNeedsCalibration := by
  rintro s raw i (rfl | rfl) hv
  · exact execCmpt_notCalibrated hv raw
  · exact execCmpp_notCalibrated hv raw

/-- Settles O25: `UNSET` is the one phase that a calibrated CMPP turns away. -/
theorem cmppNeedsATFine : Obligations.CmppNeedsATFine :=
  ⟨fun _ raw hv hq => execCmpp_tFineUnset hv hq raw,
    fun _ raw hv hq => ⟨_, _, execCmpp_calibrated hv (by rw [hq]; decide) raw, rfl, rfl⟩⟩

/-! ### The ends of a command -/

/-- The errors of a command once decoded, by the table of R176. -/
def errorsOf : Instr → List Status
  | .rdcal => [.ioError]
  | .rdraw => [.ioError]
  | .cmpt _ => [.notCalibrated]
  | .cmpp _ => [.notCalibrated, .tFineUnset]
  | .gset _ _ => [.invalidPin]
  | .gget _ => [.invalidPin]
  | .gdin _ => [.invalidPin]
  | .gdout _ _ => [.invalidPin]

/-- The three ways in which the instruction `i`, begun in `s`, can have ended in `t`. -/
inductive CommandEnd (i : Instr) (s t : State) : Prop where
  /-- The command did what it is for. -/
  | completes (d0 d1 : Word) (hr : t.rsp = some ⟨.ok, d0, d1⟩)
  /-- The channel did not yield the bytes of an RDCAL or RDRAW (R162). -/
  | failsRead (addr : Byte) (n : Nat) (o : BusOutcome) (e : Env) (hi : i = .rdcal ∨ i = .rdraw) (ho : ∀ b, o ≠ .ok b)
      (ht : t = ((s.setEnv e).log (.busRead addr n o)).raise .ioError)
  /-- A check that precedes every transaction failed (R163, R165, R166). -/
  | refuses (e : Status) (he : e ∈ errorsOf i) (hio : e ≠ .ioError) (ht : t = s.raise e)

theorem commandEnd_execRdcal {s t : State} (h : execRdcal s = .next t) : CommandEnd .rdcal s t := by
  obtain ⟨o, s', hread, rfl⟩ := execRdcal_next h
  obtain ⟨e, -, rfl⟩ := State.busRead_spec hread
  cases o with
  | ok b => exact .completes _ _ rfl
  | short k => exact .failsRead _ _ (.short k) e (.inl rfl) nofun rfl
  | fail => exact .failsRead _ _ .fail e (.inl rfl) nofun rfl

theorem commandEnd_execRdraw {s t : State} (h : execRdraw s = .next t) : CommandEnd .rdraw s t := by
  obtain ⟨o, s', hread, rfl⟩ := execRdraw_next h
  obtain ⟨e, -, rfl⟩ := State.busRead_spec hread
  cases o with
  | ok b => exact .completes _ _ rfl
  | short k => exact .failsRead _ _ (.short k) e (.inr rfl) nofun rfl
  | fail => exact .failsRead _ _ .fail e (.inr rfl) nofun rfl

theorem commandEnd_execCmpt {raw : Count} {s t : State} (h : execCmpt raw s = .next t) :
    CommandEnd (.cmpt raw) s t := by
  obtain ⟨-, rfl⟩ | ⟨-, rfl⟩ := execCmpt_next h
  · exact .completes _ _ rfl
  · exact .refuses .notCalibrated (by simp [errorsOf]) nofun rfl

theorem commandEnd_execCmpp {raw : Count} {s t : State} (h : execCmpp raw s = .next t) :
    CommandEnd (.cmpp raw) s t := by
  obtain ⟨-, -, rfl⟩ | ⟨-, -, rfl⟩ | ⟨-, rfl⟩ := execCmpp_next h
  · exact .completes _ _ rfl
  · exact .refuses .tFineUnset (by simp [errorsOf]) nofun rfl
  · exact .refuses .notCalibrated (by simp [errorsOf]) nofun rfl

/-- A GPIO command ends in the answer to its bank transactions or in `InvalidPin`. -/
theorem commandEnd_pinCheck {i : Instr} {p q : Prop} {s t body : State} {d0 d1 : Word}
    (h : (p ∧ t = body.respond d0 d1) ∨ (q ∧ t = s.raise .invalidPin)) (hi : errorsOf i = [.invalidPin]) :
    CommandEnd i s t := by
  obtain ⟨-, rfl⟩ | ⟨-, rfl⟩ := h
  · exact .completes _ _ rfl
  · exact .refuses .invalidPin (by simp [hi]) nofun rfl

theorem exec_end {s t : State} (i : Instr) (h : exec i s = .next t) : CommandEnd i s t := by
  cases i with
  | rdcal => exact commandEnd_execRdcal h
  | rdraw => exact commandEnd_execRdraw h
  | cmpt raw => exact commandEnd_execCmpt h
  | cmpp raw => exact commandEnd_execCmpp h
  | gset pin value => exact commandEnd_pinCheck (execGset_next h) rfl
  | gget pin => exact commandEnd_pinCheck (execGget_next h) rfl
  | gdin pin => exact commandEnd_pinCheck (execGdin_next h) rfl
  | gdout pin value => exact commandEnd_pinCheck (execGdout_next h) rfl

/-! ### The statuses of each command -/

theorem ioError_mem_errorsOf {i : Instr} (hi : i = .rdcal ∨ i = .rdraw) : .ioError ∈ errorsOf i := by
  obtain rfl | rfl := hi <;> simp [errorsOf]

theorem CommandEnd.status {i : Instr} {s t : State} (h : CommandEnd i s t) :
    ∃ r, t.rsp = some r ∧ (r.status = .ok ∨ r.status ∈ errorsOf i) := by
  cases h with
  | completes d0 d1 hr => exact ⟨_, hr, .inl rfl⟩
  | failsRead addr n o e hi ho ht => exact ⟨_, by rw [ht]; rfl, .inr (ioError_mem_errorsOf hi)⟩
  | refuses e he hio ht => exact ⟨_, by rw [ht]; rfl, .inr he⟩

/-- Settles O49: a command ends `OK` or in one of its errors, and the table lists them. -/
theorem statusesOfEachCommand : Obligations.StatusesOfEachCommand := by
  refine ⟨rfl, fun s t i h => ?_⟩
  obtain ⟨r, hr, hstatus⟩ := (exec_end i h).status
  refine ⟨r, hr, ?_⟩
  cases i <;> simpa [errorsOf] using hstatus

/-! ### The frame of an error -/

/-- Settles O50: a command that does not complete raises its error in the state that the word, or the word and one
failing `BusRead`, left; an illegal word raises its error at once. -/
theorem errorsLeaveTheBlockUntouched : Obligations.ErrorsLeaveTheBlockUntouched := by
  intro s t w rest r hc h hrsp hno
  cases hd : decode w with
  | legal i =>
    cases exec_end i ((step_legal hc hd).symm.trans h) with
    | completes d0 d1 hr =>
      cases hrsp.symm.trans hr
      exact absurd rfl hno
    | failsRead addr n o e hi ho ht =>
      subst ht
      cases hrsp
      exact ⟨rfl, .inr ⟨rfl, hi.imp (congrArg _) (congrArg _), addr, n, o, ho, by simp⟩⟩
    | refuses e he hio ht =>
      subst ht
      cases hrsp
      exact ⟨rfl, .inl ⟨hio, by rw [State.accept_raise]⟩⟩
  | illegal why =>
    rw [step_illegal hc hd] at h
    cases h
    cases hrsp
    exact ⟨rfl, .inl ⟨nofun, by rw [State.accept_raise]⟩⟩

end Sys2Proof.Machine
end

section
/-! The fault record of a run, read off what a step adds to the trace (R169). -/
namespace Sys2Proof.Machine

theorem Status.refusedBySpec_iff (e : Status) :
    e.refusedBySpec = true ↔ e = .illegalCommand ∨ e = .notCalibrated ∨ e = .tFineUnset := by
  cases e <;> decide

theorem Status.refusedBySpec_eq_false_iff (e : Status) :
    e.refusedBySpec = false ↔ e = .ok ∨ e = .ioError ∨ e = .invalidPin := by
  cases e <;> decide

/-- Only a response can be a run fault. -/
theorem Event.isRunFault_of_isTransaction {e : Event} (h : e.isTransaction = true) : e.isRunFault = false := by
  cases e with
  | response r => cases h
  | _ => rfl

theorem any_isRunFault_of_transactions {txs : List Event} (h : ∀ e ∈ txs, e.isTransaction = true) :
    txs.any Event.isRunFault = false :=
  List.any_eq_false.mpr fun e he => Bool.eq_false_iff.mp (Event.isRunFault_of_isTransaction (h e he))

/-- A command adds to the record what its response's status says. -/
theorem step_runFault {s t : State} {w : Word} {rest : List Word} (hc : s.hostCommands = w :: rest)
    (h : step s = .next t) : ∃ r, t.rsp = some r ∧ t.runFault = (s.runFault || r.status.refusedBySpec) := by
  obtain ⟨-, txs, r, htrace, hrsp, -, htxs, -⟩ := everyCommandEndsWithOneResponse s t w rest hc h
  exact ⟨r, hrsp, by simp [State.runFault, htrace, any_isRunFault_of_transactions htxs, Event.isRunFault]⟩

/-- Settles O57: the record is a disjunction that each command extends by its own status. -/
theorem runFaultIsSticky : Obligations.RunFaultIsSticky := by
  have hidle {s t : State} (hc : s.hostCommands = []) (h : step s = .next t) : t.runFault = s.runFault := by
    cases (step_idle hc).symm.trans h
    rfl
  refine ⟨rfl, fun s t w rest hc h => ?_, fun s t hc h => hidle hc h, fun s t h hfault => ?_⟩
  · obtain ⟨r, hrsp, hrun⟩ := step_runFault hc h
    refine ⟨r, hrsp, fun hset => ?_, fun hkeep => ?_⟩
    · rw [hrun, (Status.refusedBySpec_iff _).mpr hset, Bool.or_true]
    · rw [hrun, (Status.refusedBySpec_eq_false_iff _).mpr hkeep, Bool.or_false]
  · cases hc : s.hostCommands with
    | nil => exact (hidle hc h).trans hfault
    | cons w rest =>
      obtain ⟨r, -, hrun⟩ := step_runFault hc h
      rw [hrun, hfault, Bool.true_or]

end Sys2Proof.Machine
end

section
/-! Where RDCAL and RDRAW get stuck (R202, U10), and the state after reset (R191). -/
namespace Sys2Proof.Machine

/-! ### A silent channel -/

theorem Env.busRead_of_not_silent {e : Env} (h : ¬∃ rest, e.busScript = .silence :: rest) (addr : Byte) (n : Nat) :
    ∃ o e', e.busRead addr n = some (o, e') := by
  obtain ⟨⟨o, e'⟩, hread⟩ := Option.ne_none_iff_exists'.mp (mt (e.busRead_eq_none_iff addr n).mp h)
  exact ⟨o, e', hread⟩

theorem execRdcal_silent {s : State} (h : ∃ rest, s.env.busScript = .silence :: rest) :
    execRdcal s = .fault .channelNeverAnswers := by
  simp [execRdcal, State.busRead_eq_none ((s.env.busRead_eq_none_iff _ _).mpr h)]

theorem execRdcal_answers {s : State} (h : ¬∃ rest, s.env.busScript = .silence :: rest) :
    ∃ t, execRdcal s = .next t := by
  obtain ⟨o, e, hread⟩ := Env.busRead_of_not_silent h s.cfg.calibBase calibLen
  exact ⟨_, execRdcal_of_env hread⟩

theorem execRdraw_silent {s : State} (h : ∃ rest, s.env.busScript = .silence :: rest) :
    execRdraw s = .fault .channelNeverAnswers := by
  simp [execRdraw, State.busRead_eq_none ((s.env.busRead_eq_none_iff _ _).mpr h)]

theorem execRdraw_answers {s : State} (h : ¬∃ rest, s.env.busScript = .silence :: rest) :
    ∃ t, execRdraw s = .next t := by
  obtain ⟨o, e, hread⟩ := Env.busRead_of_not_silent h s.cfg.dataBase rawLen
  exact ⟨_, execRdraw_of_env hread⟩

/-- A command that is stuck where `p` holds and answers elsewhere is stuck exactly where `p` holds. -/
theorem iff_fault_of_stuck_of_answers {p : Prop} {o : Host.Outcome State Fault Refusal} {f : Fault}
    (hstuck : p → o = .fault f) (hanswers : ¬p → ∃ t, o = .next t) : p ↔ o = .fault f := by
  refine ⟨hstuck, fun hfault => by_contra fun hp => ?_⟩
  obtain ⟨t, ht⟩ := hanswers hp
  cases hfault.symm.trans ht

/-- Settles O19: each command's one `BusRead` is answered unless the script's next entry is silence. -/
theorem silentChannelLeavesTheCommandStuck : Obligations.SilentChannelLeavesTheCommandStuck := fun _ =>
  ⟨iff_fault_of_stuck_of_answers execRdcal_silent execRdcal_answers,
    iff_fault_of_stuck_of_answers execRdraw_silent execRdraw_answers,
    fun h => ⟨execRdcal_answers h, execRdraw_answers h⟩⟩

/-! ### Reset -/

/-- Settles O1: the fields are those of `State.reset`, and the word presented to it is the only one on the host's list. -/
theorem resetLeavesBlockEmptyAndReady : Obligations.ResetLeavesBlockEmptyAndReady :=
  ⟨rfl, rfl, rfl, rfl, rfl, rfl, rfl, fun w _ hd => step_legal (s := State.reset.present w) rfl hd⟩

/-- The default parameters of R8 meet its constraints. -/
theorem Config.ok_default : Config.default.Ok := by
  constructor <;> decide

/-- The invariant asks nothing of the block's contents before the first CMPT. -/
theorem Block.inv_of_unset {b : Block} (h : b.tseq = .unset) : b.Inv :=
  ⟨fun hq => absurd h hq, fun hq => absurd h hq, fun hq => absurd h hq⟩

/-- Settles O54: the default parameters meet R8, the phase is `UNSET`, both byte spaces are empty and no response is
held. -/
theorem resetMeetsTheInvariant : Obligations.ResetMeetsTheInvariant :=
  ⟨Config.ok_default, Block.inv_of_unset rfl, ⟨Memory.wf_nil, Memory.wf_nil⟩, nofun⟩

end Sys2Proof.Machine
end
